-- ==== Sys2Proof/Word.lean ====
section
/-! DEFINITION. The word types of the block: bytes, 16-bit words and byte sequences (spec/00_scope R7, R9). -/

namespace Sys2Proof

/-- A byte: `u8`, 0..255 (R9, R72). -/
abbrev Byte := BitVec 8

/-- A 16-bit unsigned word: `u16`, the width of TID, of the CRC and of every 16-bit field (R7, R72). -/
abbrev Word := BitVec 16

/-- A finite sequence of bytes, index 0 first on the wire (R9, R60). -/
abbrev Bytes := List Byte

end Sys2Proof
end

