-- ==== Sys2Proof/Syntax.lean ====
section
/-! DEFINITION. The commands of the block with their operands: one constructor per row of spec/opcode_table.json. -/

namespace Sys2Proof

/-- The host's record of one request that has been sent and has not resolved (spec/30_encoding R76). `rtype` is kept as
the byte the host passed: values 2..255 are reserved, and a decode command checks it (R79, R132). -/
structure Entry where
  tid : Word
  unit : Byte
  rtype : Byte
  count : Word
  deriving DecidableEq, Repr

/-- The framing variant of a frame (R2). -/
inductive Framing where
  | rtu
  | tcp
  deriving DecidableEq, Repr

/-- What surrounds the PDU of a response on the wire (R66, R68): the unit identifier and, for TCP, the transaction
identifier. -/
inductive Envelope where
  | rtu (unit : Byte)
  | tcp (tid : Word) (unit : Byte)
  deriving DecidableEq, Repr

/-- The seven formats of VDEC, in ascending bit order of `fmask` (R75). -/
inductive Format where
  | int16
  | int32be
  | int32ws
  | float16
  | float32
  | hex
  | string
  deriving DecidableEq, Repr

/-- One constructor per row of the opcode table. The first eleven are the commands of R73. The six that follow are the
wire PDUs of R63 to R65, each with the fields the block needs to build it (a request) or to take it in (a response with
its envelope and the host's outstanding list). The last seven are VDEC with one format bit set (R75). What the PDU and
format rows stand for is log 4. -/
inductive Instr where
  | crc16 (data : Bytes)
  | crcchk (frame : Bytes)
  | encrtu (unit rtype : Byte) (addr count : Word)
  | enctcp (unit rtype : Byte) (addr count : Word)
  | decrtu (frame : Bytes) (outstanding : List Entry)
  | dectcp (frame : Bytes) (outstanding : List Entry)
  | prsrtuq (frame : Bytes)
  | vdec (raw : Bytes) (fmask : Byte)
  | reset
  | tidld (v : Word)
  | tidrd
  | reqReadHolding (framing : Framing) (unit : Byte) (addr count : Word)
  | reqReadInput (framing : Framing) (unit : Byte) (addr count : Word)
  | rspReadHolding (envelope : Envelope) (data : Bytes) (outstanding : List Entry)
  | rspReadInput (envelope : Envelope) (data : Bytes) (outstanding : List Entry)
  | excReadHolding (envelope : Envelope) (code : Byte) (outstanding : List Entry)
  | excReadInput (envelope : Envelope) (code : Byte) (outstanding : List Entry)
  | vdecInt16 (raw : Bytes)
  | vdecInt32be (raw : Bytes)
  | vdecInt32ws (raw : Bytes)
  | vdecFloat16 (raw : Bytes)
  | vdecFloat32 (raw : Bytes)
  | vdecHex (raw : Bytes)
  | vdecString (raw : Bytes)
  deriving DecidableEq, Repr

end Sys2Proof
end

