-- ==== Sys2Proof/Machine/Operands.lean ====
section
/-! DEFINITION. Operand assembly: the byte-order, bit-field and sign-extension primitives of spec/00_scope R9, and the
operand encodings of spec/30_encoding R74, R75 and R81. -/

namespace Sys2Proof

/-- `be16(hi, lo) = hi * 256 + lo` (R9). -/
def be16 (hi lo : Byte) : Word := hi ++ lo

/-- `be32(b0, b1, b2, b3)`, `b0` most significant (R9). -/
def be32 (b0 b1 b2 b3 : Byte) : BitVec 32 := b0 ++ b1 ++ b2 ++ b3

/-- `hi8(v) = v[15:8]` (R9). -/
def hi8 (v : Word) : Byte := v.extractLsb' 8 8

/-- `lo8(v) = v[7:0]` (R9). -/
def lo8 (v : Word) : Byte := v.extractLsb' 0 8

/-- A 16-bit field on the wire or on the command channel, high byte first (R44, R78). -/
def wordBytes (v : Word) : Bytes := [hi8 v, lo8 v]

/-- `sext_16` (R9): the two's-complement reading of a 16-bit value. -/
def sext16 (v : Word) : Int := v.toInt

/-- `sext_32` (R9): the two's-complement reading of a 32-bit value. -/
def sext32 (v : BitVec 32) : Int := v.toInt

/-- `b[i]` (R9). Every use stands behind a length check, so the 0 past the end is never looked at. -/
def byteAt (b : Bytes) (i : Nat) : Byte := b.getD i 0

/-- `b[i .. i + len - 1]` (R9): the `len` bytes from index `i` on. -/
def slice (b : Bytes) (i len : Nat) : Bytes := (b.drop i).take len

/-- The legal values of `rtype`: 0 is Holding and 1 is Input (R74). -/
def rtypeLegal (rtype : Byte) : Bool := rtype == 0 || rtype == 1

/-- `fc(rtype)`: 0x03 for Holding and 0x04 for Input (R61, R74, R112). Used only behind `rtypeLegal`. -/
def functionCode (rtype : Byte) : Byte := if rtype = 0 then 0x03 else 0x04

/-- The function code of the exception form, `fc OR 0x80` (R62). -/
def exceptionCode (fc : Byte) : Byte := fc ||| 0x80

/-- The seven formats in ascending bit order (R75). -/
def allFormats : List Format :=
  [.int16, .int32be, .int32ws, .float16, .float32, .hex, .string]

/-- The bit of `fmask` that selects a format (R75). -/
def formatBit : Format → Nat
  | .int16 => 0
  | .int32be => 1
  | .int32ws => 2
  | .float16 => 3
  | .float32 => 4
  | .hex => 5
  | .string => 6

/-- The `fmask` that selects one format alone (R75). -/
def formatMask (f : Format) : Byte := 1#8 <<< formatBit f

/-- The `format_name` of a format (R75). -/
def formatName : Format → String
  | .int16 => "Int16"
  | .int32be => "Int32 big-endian"
  | .int32ws => "Int32 word-swapped"
  | .float16 => "Float16"
  | .float32 => "Float32"
  | .hex => "Hex"
  | .string => "String"

end Sys2Proof
end

