-- ==== Sys2Proof/Machine/Frame.lean ====
section
/-! DEFINITION. The CRC-16 of spec/40_crc R100 and R101, and the wire layouts of spec/30_encoding R61 to R70: PDUs, and
the RTU and TCP frames around them. -/

namespace Sys2Proof

/-- One of the eight shifts that a byte takes through the CRC register (R100). -/
def crcBit (crc : Word) : Word :=
  if crc.getLsbD 0 then (crc >>> 1) ^^^ 0xA001#16 else crc >>> 1

/-- One byte through the CRC register: XOR it into the low half, then eight shifts (R100). -/
def crcByte (crc : Word) (b : Byte) : Word :=
  crcBit (crcBit (crcBit (crcBit (crcBit (crcBit (crcBit (crcBit (crc ^^^ b.setWidth 16))))))))

/-- `crc16(data)`: initial value 0xFFFF, bytes in order, no final XOR (R100). -/
def crc16 (data : Bytes) : Word := data.foldl crcByte 0xFFFF#16

/-- `frame ++ [lo8(crc), hi8(crc)]` (R101). -/
def appendCrc (b : Bytes) : Bytes := b ++ [lo8 (crc16 b), hi8 (crc16 b)]

/-- The CRC a frame of at least two bytes carries: `be16(frame[n-1], frame[n-2])` (R101). -/
def trailingCrc (b : Bytes) : Word := be16 (byteAt b (b.length - 1)) (byteAt b (b.length - 2))

/-- The CRC check of a frame of at least two bytes (R67, R103): the CRC of all bytes but the last two against the
trailing CRC. -/
def crcHolds (b : Bytes) : Bool := crc16 (b.take (b.length - 2)) == trailingCrc b

/-- The read request PDU (R63). -/
def requestPdu (fc : Byte) (addr count : Word) : Bytes := fc :: wordBytes addr ++ wordBytes count

/-- The success response PDU (R64): function code, byte count, register data. -/
def responsePdu (fc : Byte) (data : Bytes) : Bytes := fc :: BitVec.ofNat 8 data.length :: data

/-- The exception response PDU (R65), for the request's function code. -/
def exceptionPdu (fc code : Byte) : Bytes := [exceptionCode fc, code]

/-- The RTU frame around a PDU (R66, R67). -/
def rtuFrame (unit : Byte) (pdu : Bytes) : Bytes := appendCrc (unit :: pdu)

/-- The TCP frame around a PDU (R68): transaction identifier, protocol identifier 0, the number of bytes that follow the
length field, unit identifier, PDU. -/
def tcpFrame (tid : Word) (unit : Byte) (pdu : Bytes) : Bytes :=
  wordBytes tid ++ wordBytes 0 ++ wordBytes (BitVec.ofNat 16 (1 + pdu.length)) ++ unit :: pdu

/-- The frame of an envelope around a PDU (R66, R68). -/
def envelopeFrame : Envelope → Bytes → Bytes
  | .rtu unit, pdu => rtuFrame unit pdu
  | .tcp tid unit, pdu => tcpFrame tid unit pdu

end Sys2Proof
end

