-- ==== Sys2Proof/WellFormed.lean ====
section
/-! DEFINITION. Which commands have a serialized form (spec/30_encoding R78): byte sequences of at most 65535 bytes and
lists of at most 255 entries. A reserved `rtype` or `fmask` bit is no ill-formed command: it is encoded, and the block
answers it with a status (R79). -/

namespace Sys2Proof

/-- A byte sequence whose length fits the 16-bit length of a `Bytes` operand (R78). -/
def bytesFit (b : Bytes) : Bool := decide (b.length ≤ 65535)

/-- A list of entries whose length fits `nent`, one byte (R78). -/
def entriesFit (es : List Entry) : Bool := decide (es.length ≤ 255)

/-- Register data whose length fits the one-byte byte count of a success response (R64). -/
def dataFits (data : Bytes) : Bool := decide (data.length ≤ 255)

/-- The commands with a serialized form (R78). -/
def wellFormed : Instr → Bool
  | .crc16 data => bytesFit data
  | .crcchk frame => bytesFit frame
  | .encrtu _ _ _ _ => true
  | .enctcp _ _ _ _ => true
  | .decrtu frame outstanding => bytesFit frame && entriesFit outstanding
  | .dectcp frame outstanding => bytesFit frame && entriesFit outstanding
  | .prsrtuq frame => bytesFit frame
  | .vdec raw _ => bytesFit raw
  | .reset => true
  | .tidld _ => true
  | .tidrd => true
  | .reqReadHolding _ _ _ _ => true
  | .reqReadInput _ _ _ _ => true
  | .rspReadHolding _ data outstanding => dataFits data && entriesFit outstanding
  | .rspReadInput _ data outstanding => dataFits data && entriesFit outstanding
  | .excReadHolding _ _ outstanding => entriesFit outstanding
  | .excReadInput _ _ outstanding => entriesFit outstanding
  | .vdecInt16 raw => bytesFit raw
  | .vdecInt32be raw => bytesFit raw
  | .vdecInt32ws raw => bytesFit raw
  | .vdecFloat16 raw => bytesFit raw
  | .vdecFloat32 raw => bytesFit raw
  | .vdecHex raw => bytesFit raw
  | .vdecString raw => bytesFit raw

end Sys2Proof
end

