-- ==== Sys2Proof/Decode.lean ====
section
/-! DEFINITION. The command channel's decoder and encoder: the serialized command descriptors of spec/30_encoding R73 and
R78, byte 0 the opcode, every multi-byte field big-endian. The PDU and format rows of the opcode table have no opcode of
their own; they are encoded as the command that carries them (log 4). -/

namespace Sys2Proof

/-- The command opcodes (R73). -/
inductive Opcode where
  | crc16
  | crcchk
  | encrtu
  | enctcp
  | decrtu
  | dectcp
  | prsrtuq
  | vdec
  | reset
  | tidld
  | tidrd
  deriving DecidableEq, Repr

/-- The opcode byte of a command (R73). -/
def opcodeByte : Opcode → Byte
  | .crc16 => 0x01
  | .crcchk => 0x02
  | .encrtu => 0x10
  | .enctcp => 0x11
  | .decrtu => 0x20
  | .dectcp => 0x21
  | .prsrtuq => 0x22
  | .vdec => 0x30
  | .reset => 0x40
  | .tidld => 0x41
  | .tidrd => 0x42

/-- Every row of the table of R73. -/
def allOpcodes : List Opcode :=
  [.crc16, .crcchk, .encrtu, .enctcp, .decrtu, .dectcp, .prsrtuq, .vdec, .reset, .tidld, .tidrd]

/-- The command a byte selects; none for a reserved opcode (R73, R79). -/
def opcodeOf (b : Byte) : Option Opcode := allOpcodes.find? (fun o => opcodeByte o == b)

/-- What the decoder makes of the command channel. -/
inductive Decoded where
  /-- A whole command descriptor, and the bytes after it. -/
  | command (i : Instr) (rest : Bytes)
  /-- A reserved opcode, which takes no operands, and the bytes after it (R79, R193). -/
  | reserved (opcode : Byte) (rest : Bytes)
  /-- No command yet: the channel is empty or the descriptor's bytes have not all arrived (log 5). -/
  | waiting
  deriving DecidableEq, Repr

/-- Reads a `u16` operand, high byte first (R78). -/
def readWord : Bytes → Option (Word × Bytes)
  | hi :: lo :: rest => some (be16 hi lo, rest)
  | _ => none

/-- Reads a `Bytes` operand: a 16-bit length, then that many bytes (R78). -/
def readBytes (b : Bytes) : Option (Bytes × Bytes) :=
  match readWord b with
  | none => none
  | some (n, rest) =>
    if rest.length < n.toNat then none else some (rest.take n.toNat, rest.drop n.toNat)

/-- Reads `n` entries of six bytes each: `tid_hi, tid_lo, unit, rtype, count_hi, count_lo` (R78). -/
def readEntries : Nat → Bytes → Option (List Entry × Bytes)
  | 0, b => some ([], b)
  | n + 1, tidHi :: tidLo :: unit :: rtype :: countHi :: countLo :: rest =>
    match readEntries n rest with
    | none => none
    | some (es, after) => some (⟨be16 tidHi tidLo, unit, rtype, be16 countHi countLo⟩ :: es, after)
  | _ + 1, _ => none

/-- Reads the operands of ENCRTU and ENCTCP: `unit, rtype, addr, count` (R78). -/
def readRequest (make : Byte → Byte → Word → Word → Instr) : Bytes → Option (Instr × Bytes)
  | unit :: rtype :: addrHi :: addrLo :: countHi :: countLo :: rest =>
    some (make unit rtype (be16 addrHi addrLo) (be16 countHi countLo), rest)
  | _ => none

/-- Reads the operand of CRC16, CRCCHK and PRSRTUQ: one byte sequence (R78). -/
def readFrame (make : Bytes → Instr) (b : Bytes) : Option (Instr × Bytes) :=
  match readBytes b with
  | none => none
  | some (frame, rest) => some (make frame, rest)

/-- Reads the operands of DECRTU and DECTCP: `nent`, the frame, then the entries (R78). -/
def readResponse (make : Bytes → List Entry → Instr) : Bytes → Option (Instr × Bytes)
  | [] => none
  | nent :: b =>
    match readBytes b with
    | none => none
    | some (frame, rest) =>
      match readEntries nent.toNat rest with
      | none => none
      | some (es, after) => some (make frame es, after)

/-- Reads the operands of VDEC: `fmask`, then the raw bytes (R78). -/
def readVdec : Bytes → Option (Instr × Bytes)
  | [] => none
  | fmask :: b => readFrame (fun raw => .vdec raw fmask) b

/-- Reads the operand of TIDLD (R78). -/
def readTidld (b : Bytes) : Option (Instr × Bytes) :=
  match readWord b with
  | none => none
  | some (v, rest) => some (.tidld v, rest)

/-- Reads the operands the opcode takes (R72, R73, R78). -/
def readOperands : Opcode → Bytes → Option (Instr × Bytes)
  | .crc16, b => readFrame .crc16 b
  | .crcchk, b => readFrame .crcchk b
  | .encrtu, b => readRequest .encrtu b
  | .enctcp, b => readRequest .enctcp b
  | .decrtu, b => readResponse .decrtu b
  | .dectcp, b => readResponse .dectcp b
  | .prsrtuq, b => readFrame .prsrtuq b
  | .vdec, b => readVdec b
  | .reset, b => some (.reset, b)
  | .tidld, b => readTidld b
  | .tidrd, b => some (.tidrd, b)

/-- Decodes the next command on the channel: the opcode, then its operands (R78, R79). -/
def decode : Bytes → Decoded
  | [] => .waiting
  | op :: b =>
    match opcodeOf op with
    | none => .reserved op b
    | some o =>
      match readOperands o b with
      | none => .waiting
      | some (i, rest) => .command i rest

/-- A `Bytes` operand as sent: its 16-bit length, then its bytes (R78). -/
def bytesField (b : Bytes) : Bytes := wordBytes (BitVec.ofNat 16 b.length) ++ b

/-- An entry as sent, six bytes (R78). -/
def entryField (e : Entry) : Bytes := wordBytes e.tid ++ [e.unit, e.rtype] ++ wordBytes e.count

/-- The descriptor of CRC16, CRCCHK or PRSRTUQ (R78). -/
def encodeFrame (o : Opcode) (frame : Bytes) : Bytes := opcodeByte o :: bytesField frame

/-- The descriptor of ENCRTU or ENCTCP (R78). -/
def encodeRequest (o : Opcode) (unit rtype : Byte) (addr count : Word) : Bytes :=
  opcodeByte o :: unit :: rtype :: wordBytes addr ++ wordBytes count

/-- The descriptor of DECRTU or DECTCP (R78). -/
def encodeResponse (o : Opcode) (frame : Bytes) (es : List Entry) : Bytes :=
  opcodeByte o :: BitVec.ofNat 8 es.length :: bytesField frame ++ es.flatMap entryField

/-- The descriptor of VDEC (R78). -/
def encodeVdec (raw : Bytes) (fmask : Byte) : Bytes := opcodeByte .vdec :: fmask :: bytesField raw

/-- The command that marshals a request in a framing (R113, R114). -/
def requestOpcode : Framing → Opcode
  | .rtu => .encrtu
  | .tcp => .enctcp

/-- The command that parses a response in an envelope (R134, R135). -/
def responseOpcode : Envelope → Opcode
  | .rtu _ => .decrtu
  | .tcp _ _ => .dectcp

/-- The serialized descriptor of a command (R78). -/
def encode : Instr → Bytes
  | .crc16 data => encodeFrame .crc16 data
  | .crcchk frame => encodeFrame .crcchk frame
  | .encrtu unit rtype addr count => encodeRequest .encrtu unit rtype addr count
  | .enctcp unit rtype addr count => encodeRequest .enctcp unit rtype addr count
  | .decrtu frame outstanding => encodeResponse .decrtu frame outstanding
  | .dectcp frame outstanding => encodeResponse .dectcp frame outstanding
  | .prsrtuq frame => encodeFrame .prsrtuq frame
  | .vdec raw fmask => encodeVdec raw fmask
  | .reset => [opcodeByte .reset]
  | .tidld v => opcodeByte .tidld :: wordBytes v
  | .tidrd => [opcodeByte .tidrd]
  | .reqReadHolding framing unit addr count => encodeRequest (requestOpcode framing) unit 0 addr count
  | .reqReadInput framing unit addr count => encodeRequest (requestOpcode framing) unit 1 addr count
  | .rspReadHolding envelope data outstanding =>
    encodeResponse (responseOpcode envelope) (envelopeFrame envelope (responsePdu 0x03 data)) outstanding
  | .rspReadInput envelope data outstanding =>
    encodeResponse (responseOpcode envelope) (envelopeFrame envelope (responsePdu 0x04 data)) outstanding
  | .excReadHolding envelope code outstanding =>
    encodeResponse (responseOpcode envelope) (envelopeFrame envelope (exceptionPdu 0x03 code)) outstanding
  | .excReadInput envelope code outstanding =>
    encodeResponse (responseOpcode envelope) (envelopeFrame envelope (exceptionPdu 0x04 code)) outstanding
  | .vdecInt16 raw => encodeVdec raw (formatMask .int16)
  | .vdecInt32be raw => encodeVdec raw (formatMask .int32be)
  | .vdecInt32ws raw => encodeVdec raw (formatMask .int32ws)
  | .vdecFloat16 raw => encodeVdec raw (formatMask .float16)
  | .vdecFloat32 raw => encodeVdec raw (formatMask .float32)
  | .vdecHex raw => encodeVdec raw (formatMask .hex)
  | .vdecString raw => encodeVdec raw (formatMask .string)

/-- The request command of a framing (R113, R114). -/
def requestCommand (framing : Framing) (unit rtype : Byte) (addr count : Word) : Instr :=
  match framing with
  | .rtu => .encrtu unit rtype addr count
  | .tcp => .enctcp unit rtype addr count

/-- The decode command that takes a PDU in, in its envelope (R134, R135). -/
def responseCommand (envelope : Envelope) (pdu : Bytes) (outstanding : List Entry) : Instr :=
  match envelope with
  | .rtu unit => .decrtu (rtuFrame unit pdu) outstanding
  | .tcp tid unit => .dectcp (tcpFrame tid unit pdu) outstanding

/-- The command of R73 whose descriptor an instruction is sent as: itself for the eleven commands, and for a PDU or
format row the command that carries it (log 4). -/
def coreCommand : Instr → Instr
  | .crc16 data => .crc16 data
  | .crcchk frame => .crcchk frame
  | .encrtu unit rtype addr count => .encrtu unit rtype addr count
  | .enctcp unit rtype addr count => .enctcp unit rtype addr count
  | .decrtu frame outstanding => .decrtu frame outstanding
  | .dectcp frame outstanding => .dectcp frame outstanding
  | .prsrtuq frame => .prsrtuq frame
  | .vdec raw fmask => .vdec raw fmask
  | .reset => .reset
  | .tidld v => .tidld v
  | .tidrd => .tidrd
  | .reqReadHolding framing unit addr count => requestCommand framing unit 0 addr count
  | .reqReadInput framing unit addr count => requestCommand framing unit 1 addr count
  | .rspReadHolding envelope data outstanding => responseCommand envelope (responsePdu 0x03 data) outstanding
  | .rspReadInput envelope data outstanding => responseCommand envelope (responsePdu 0x04 data) outstanding
  | .excReadHolding envelope code outstanding => responseCommand envelope (exceptionPdu 0x03 code) outstanding
  | .excReadInput envelope code outstanding => responseCommand envelope (exceptionPdu 0x04 code) outstanding
  | .vdecInt16 raw => .vdec raw (formatMask .int16)
  | .vdecInt32be raw => .vdec raw (formatMask .int32be)
  | .vdecInt32ws raw => .vdec raw (formatMask .int32ws)
  | .vdecFloat16 raw => .vdec raw (formatMask .float16)
  | .vdecFloat32 raw => .vdec raw (formatMask .float32)
  | .vdecHex raw => .vdec raw (formatMask .hex)
  | .vdecString raw => .vdec raw (formatMask .string)

/-- The bytes of a word that opcode_table.json numbers: byte 0 is bits 7..0, and above `nbits` zeros up to the longest
descriptor whose operand bytes are all zero (ENCRTU, seven bytes). -/
def tableBytes (nbits w : Nat) : Bytes :=
  (List.range (nbits / 8)).map (fun k => BitVec.ofNat 8 (w >>> (8 * k))) ++ List.replicate (7 - nbits / 8) 0

/-- The row of the PDU and format spaces of opcode_table.json that begins with a byte (R61, R62, R75), its other fields
read from the bytes that follow: a request PDU (R63), an exception PDU (R65) or a format bit. Where the table gives one
byte to several rows, the request PDU is read before the format bit. Unit 0, RTU and an empty outstanding list stand in
the fields that no byte of the row gives (log 6). -/
def operandRow : Bytes → Option Instr
  | fc :: addrHi :: addrLo :: countHi :: countLo :: _ =>
    if fc = 0x03 then some (.reqReadHolding .rtu 0 (be16 addrHi addrLo) (be16 countHi countLo))
    else if fc = 0x04 then some (.reqReadInput .rtu 0 (be16 addrHi addrLo) (be16 countHi countLo))
    else if fc = 0x83 then some (.excReadHolding (.rtu 0) addrHi [])
    else if fc = 0x84 then some (.excReadInput (.rtu 0) addrHi [])
    else if fc = formatMask .float16 then some (.vdecFloat16 [])
    else none
  | _ => none

/-- The instruction that the bits of an opcode-table row stand for: in the command space first, and for a byte that is
no command opcode, in the PDU and format spaces (log 6). -/
def decodeTableWord (nbits w : Nat) : Option Instr :=
  match decode (tableBytes nbits w) with
  | .command i _ => some i
  | .reserved _ _ => operandRow (tableBytes nbits w)
  | .waiting => none

/-- What the host puts on the command channel to have that instruction run: its bits, or for a row that is no command,
the descriptor of the command that carries it (log 6). -/
def tableDescriptor (nbits w : Nat) : Bytes :=
  match decode (tableBytes nbits w) with
  | .command _ _ => tableBytes nbits w
  | .reserved _ _ =>
    match operandRow (tableBytes nbits w) with
    | some i => encode i
    | none => tableBytes nbits w
  | .waiting => tableBytes nbits w

end Sys2Proof
end

