-- ==== Sys2Proof/Config.lean ====
section
/-! DEFINITION. The three OPEN parameters of a block instance (spec/00_scope R7, 10_state R27): configuration, not
state. The instance's own values are constants without a body, so that nothing can be proved from a particular value. -/

namespace Sys2Proof

/-- The parameters of a block instance (R7): the bound on `count`, the exception codes that are gateway errors, and the
value of TID after a reset. -/
structure Params where
  maxCount : Nat
  gatewayCodes : List Byte
  tidInit : Word
  deriving DecidableEq, Repr

/-- The legal values of the parameters: MAX_COUNT is in 1..65535 and the other two are free (R7). -/
abbrev Params.Legal (p : Params) : Prop := 1 ≤ p.maxCount ∧ p.maxCount ≤ 65535

/-- The reference values of R7, which the vectors of spec/95 use. -/
def Params.reference : Params := ⟨125, [0x0A, 0x0B], 0x0000⟩

/-- MAX_COUNT of this instance, less one: any value that makes MAX_COUNT lie in 1..65535 (R7, D9; log 1). -/
opaque Config.maxCountLessOne : Fin 65535

/-- GATEWAY_CODES of this instance: any list of bytes, read as a set (R7, R133, D15; log 1). -/
opaque Config.gatewayCodes : List Byte

/-- TID_INIT of this instance: any 16-bit value (R22, R241, D5; log 1). -/
opaque Config.tidInit : Word

/-- The parameters of this instance, fixed for its lifetime (R27). -/
def Config.params : Params :=
  ⟨Config.maxCountLessOne.val + 1, Config.gatewayCodes, Config.tidInit⟩

end Sys2Proof
end

