-- ==== Sys2Proof/Machine/State.lean ====
section
/-! DEFINITION. The state of the machine: the block's one register TID (spec/10_state R20, R29), the command channel on
which the host supplies commands (R25, 30_encoding R78), and what the last command returned (00_scope R6). -/

namespace Sys2Proof.Machine

/-- The status of a command (spec/60_exceptions R200). -/
inductive Status where
  | ok
  | illegalCommand
  | illegalOperand
  | illegalUnit
  | illegalCount
  deriving DecidableEq, Repr

/-- Why a frame is INVALID_FRAME, and CRCCHK's reason (R202); `clear` is reason 0, used by CRCCHK on a match. -/
inductive Reason where
  | clear
  | short
  | crc
  | noMatchUnit
  | noMatchTid
  | ambiguous
  | protocolId
  | lengthField
  | fcMismatch
  | byteCount
  | length
  deriving DecidableEq, Repr

/-- What every accepted response reports (30_encoding R77): the position of the matched entry, the frame's unit
identifier and function code, and for TCP the transaction identifier. -/
structure Matched where
  entry : Nat
  unit : Byte
  fc : Byte
  tid : Option Word
  deriving DecidableEq, Repr

/-- The result of DECRTU and DECTCP (R77). -/
inductive ParseResult where
  | success (m : Matched) (raw : Bytes)
  | deviceError (m : Matched) (code : Byte)
  | gatewayError (m : Matched) (code : Byte)
  | invalidFrame (reason : Reason)
  deriving DecidableEq, Repr

/-- The result of PRSRTUQ (R77). -/
inductive RequestResult where
  | validRequest (unit fc rtype : Byte) (addr count : Word)
  | invalidFrame (reason : Reason)
  deriving DecidableEq, Repr

/-- A decoded value (43_value_decode): an integer, a float kept as the bit pattern of its datum (R170), a string of
hexadecimal digits, or a sequence of characters. -/
inductive Value where
  | int (v : Int)
  | float16 (bits : Word)
  | float32 (bits : BitVec 32)
  | hex (digits : List Char)
  | text (chars : List Char)
  deriving DecidableEq, Repr

/-- The result of one selected format of VDEC (R77). -/
inductive FormatResult where
  | value (v : Value)
  | insufficientData
  deriving DecidableEq, Repr

/-- The result record of a command (30_encoding R73, R77). -/
inductive Result where
  | none
  | crc (crc : Word)
  | check (matched : Bool) (reason : Reason)
  | frame (frame : Bytes)
  | frameTid (frame : Bytes) (tid : Word)
  | parse (r : ParseResult)
  | request (r : RequestResult)
  | formats (out : List (Format × FormatResult))
  | tid (v : Word)
  deriving DecidableEq, Repr

/-- What a command returns: `return (status, result)` (00_scope R9). -/
structure Response where
  status : Status
  result : Result
  deriving DecidableEq, Repr

/-- The block raises no trap and has no stuck or halted state (60_exceptions R205, R208; 44_system R193), so there is no
way for it to stop: nothing raises a fault, and this type has no constructor (safe: nothing is hidden behind it). -/
inductive Fault where
  deriving DecidableEq, Repr

/-- The reasons to refuse an instruction. -/
inductive Refusal where
  /-- Raised by `exec` for an instruction that has no meaning yet; every instruction has one, so nothing raises it
  (safe). -/
  | notModelled (mnemonic : String)
  deriving DecidableEq, Repr

/-- The state. `tid` is the whole of the block's architectural state (R20, R29). `input` holds the bytes of the command
descriptors that the host has issued and the block has not taken; `response` is what the last command returned, absent
before the first one. No command reads `input` or `response` (R26). -/
structure State where
  tid : Word
  input : Bytes
  response : Option Response
  deriving DecidableEq, Repr

/-- A block instance just created (70_reset R240, R241): TID is TID_INIT, and it waits for the first command (R242). -/
def State.reset : State where
  tid := Config.params.tidInit
  input := []
  response := Option.none

end Sys2Proof.Machine
end

