-- ==== Sys2Proof/Machine/Ops.lean ====
section
/-! DEFINITION. The named operations over the state. Every command ends in `finish` or in `fail`; TID is written by
`setTid` alone. The block takes no exceptions (spec/60_exceptions R205, R208): ending with a status other than OK is the
one way a command reports an error, and `fail` is that operation. -/

namespace Sys2Proof.Machine

/-- What a step ends in. -/
abbrev StepOutcome := Host.Outcome State Fault Refusal

/-- Ends a command with a status and a result record (00_scope R9 `return`). -/
def answer (r : Response) (s : State) : State := { s with response := some r }

/-- `return (OK, result)` (R9). -/
def finish (r : Result) (s : State) : StepOutcome := .next (answer ⟨.ok, r⟩ s)

/-- `fail S`: `return (S, none)`, with no state written (R9, 60_exceptions R204). -/
def fail (status : Status) (s : State) : StepOutcome := .next (answer ⟨status, .none⟩ s)

/-- `TID <- v` (R9). -/
def setTid (v : Word) (s : State) : State := { s with tid := v }

/-- The allocation of a transaction identifier, after its value has been used: TID + 1 modulo 2^16, 0 not skipped
(41_marshal R115). -/
def advanceTid (s : State) : State := setTid (s.tid + 1) s

/-- Takes a command's bytes off the channel, leaving the bytes after it. -/
def leaveInput (rest : Bytes) (s : State) : State := { s with input := rest }

/-- Puts bytes at the front of the channel, so that they are read next. -/
def putFirst (b : Bytes) (s : State) : State := { s with input := b ++ s.input }

end Sys2Proof.Machine
end

