-- ==== Sys2Proof/Machine/Crc.lean ====
section
/-! DEFINITION. The CRC family (spec/40_crc): CRC16 and CRCCHK. Neither reads or writes TID. -/

namespace Sys2Proof.Machine

/-- CRC16 (R102): always OK. -/
def execCrc16 (data : Bytes) (s : State) : StepOutcome := finish (.crc (crc16 data)) s

/-- The result of CRCCHK (R103): a frame shorter than two bytes has no CRC. -/
def checkFrame (frame : Bytes) : Result :=
  if frame.length < 2 then .check false .short
  else if crcHolds frame then .check true .clear
  else .check false .crc

/-- CRCCHK (R103): always OK. -/
def execCrcchk (frame : Bytes) (s : State) : StepOutcome := finish (checkFrame frame) s

end Sys2Proof.Machine
end

