-- ==== Sys2Proof/Machine/Flags.lean ====
section
/-! DEFINITION. The block has no condition codes (spec/10_state R26). What a command reports instead is here: the numeric
status codes, reason codes and kinds, the operand checks that give a status, and the classification of exception codes
(60_exceptions R200 to R203, 41_marshal R111, 42_parse R132 and R133). -/

namespace Sys2Proof.Machine

/-- The 8-bit status (R200). -/
def statusCode : Status → Byte
  | .ok => 0x00
  | .illegalCommand => 0x01
  | .illegalOperand => 0x02
  | .illegalUnit => 0x03
  | .illegalCount => 0x04

/-- The reason code (R202). -/
def reasonCode : Reason → Byte
  | .clear => 0
  | .short => 1
  | .crc => 2
  | .noMatchUnit => 3
  | .noMatchTid => 4
  | .ambiguous => 5
  | .protocolId => 6
  | .lengthField => 7
  | .fcMismatch => 8
  | .byteCount => 9
  | .length => 10

/-- The kind of a `ParseResult` (30_encoding R77). -/
def parseKind : ParseResult → Byte
  | .success _ _ => 0
  | .deviceError _ _ => 1
  | .gatewayError _ _ => 2
  | .invalidFrame _ => 3

/-- The kind of a `RequestResult` (R77). -/
def requestKind : RequestResult → Byte
  | .validRequest _ _ _ _ _ => 4
  | .invalidFrame _ => 3

/-- `validate(unit, rtype, addr, count)` (41_marshal R111): the first check that fails gives the status, none when all
pass. Every `addr` is legal, and `addr + count` is not checked (20_memory R43). -/
def validate (p : Params) (unit rtype : Byte) (_addr count : Word) : Option Status :=
  if rtypeLegal rtype = false then some .illegalOperand
  else if unit.toNat < 1 ∨ unit.toNat > 247 then some .illegalUnit
  else if count.toNat < 1 ∨ count.toNat > p.maxCount then some .illegalCount
  else none

/-- The check of an outstanding list (42_parse R132): every entry's `rtype` is 0 or 1, and nothing else is looked at. -/
def entriesLegal (outstanding : List Entry) : Bool := outstanding.all (fun e => rtypeLegal e.rtype)

/-- `classify(code)` (R133): a gateway error when the code is in GATEWAY_CODES, else a device error. -/
def classify (p : Params) (m : Matched) (code : Byte) : ParseResult :=
  if p.gatewayCodes.contains code then .gatewayError m code else .deviceError m code

end Sys2Proof.Machine
end

