-- ==== Sys2Proof/Machine/Marshal.lean ====
section
/-! DEFINITION. The request marshaller (spec/41_marshal): ENCRTU, ENCTCP, and the two request PDUs they build. The
`With` operations take the parameters as an argument (00_scope R7); the meanings use this instance's. -/

namespace Sys2Proof.Machine

/-- ENCRTU with given parameters (R113): validation, then the 8-byte frame. -/
def encodeRtuWith (p : Params) (unit rtype : Byte) (addr count : Word) (s : State) : StepOutcome :=
  match validate p unit rtype addr count with
  | some status => fail status s
  | none => finish (.frame (rtuFrame unit (requestPdu (functionCode rtype) addr count))) s

/-- ENCTCP with given parameters (R114, R115, R116): validation, then the 12-byte frame that carries TID, and TID is
advanced. -/
def encodeTcpWith (p : Params) (unit rtype : Byte) (addr count : Word) (s : State) : StepOutcome :=
  match validate p unit rtype addr count with
  | some status => fail status s
  | none =>
    finish (.frameTid (tcpFrame s.tid unit (requestPdu (functionCode rtype) addr count)) s.tid)
      (advanceTid s)

/-- A read request in either framing. -/
def marshalWith (p : Params) (framing : Framing) (unit rtype : Byte) (addr count : Word) (s : State) :
    StepOutcome :=
  match framing with
  | .rtu => encodeRtuWith p unit rtype addr count s
  | .tcp => encodeTcpWith p unit rtype addr count s

/-- ENCRTU (R113). -/
def execEncrtu (unit rtype : Byte) (addr count : Word) (s : State) : StepOutcome :=
  encodeRtuWith Config.params unit rtype addr count s

/-- ENCTCP (R114). -/
def execEnctcp (unit rtype : Byte) (addr count : Word) (s : State) : StepOutcome :=
  encodeTcpWith Config.params unit rtype addr count s

/-- REQ_READ_HOLDING (30_encoding R63, 41_marshal R113): the request PDU with function code 0x03 is built by the encode
command of its framing with `rtype` Holding. -/
def execReqReadHolding (framing : Framing) (unit : Byte) (addr count : Word) (s : State) : StepOutcome :=
  marshalWith Config.params framing unit 0 addr count s

/-- REQ_READ_INPUT (R63, R113): the request PDU with function code 0x04, `rtype` Input. -/
def execReqReadInput (framing : Framing) (unit : Byte) (addr count : Word) (s : State) : StepOutcome :=
  marshalWith Config.params framing unit 1 addr count s

end Sys2Proof.Machine
end

