-- ==== Sys2Proof/Machine/Parse.lean ====
section
/-! DEFINITION. The parsers (spec/42_parse): DECRTU, DECTCP, PRSRTUQ, and the four response PDUs that the decode commands
take in. None of them reads or writes TID (R142). -/

namespace Sys2Proof.Machine

/-- The outstanding entries a key selects, each with its position in the operand (R132). -/
def selectEntries (key : Entry → Bool) (outstanding : List Entry) : List (Entry × Nat) :=
  outstanding.zipIdx.filter (fun e => key e.1)

/-- What the parsers of R134 and R135 do once an entry `e` is matched and the framing's own fields are checked. `n` is
the frame's length, `exceptionLength` the length of an exception response, and `at'` the index of the function code; the
byte after it is the exception code or the byte count. -/
def parsePdu (p : Params) (m : Matched) (e : Entry) (b : Bytes) (at' exceptionLength : Nat) : ParseResult :=
  let f := functionCode e.rtype
  let arg := byteAt b (at' + 1)
  if m.fc = exceptionCode f then
    if b.length ≠ exceptionLength then .invalidFrame .length
    else classify p m arg
  else if m.fc = f then
    if arg.toNat ≠ 2 * e.count.toNat then .invalidFrame .byteCount
    else if b.length ≠ exceptionLength + arg.toNat then .invalidFrame .length
    else .success m (slice b (at' + 2) arg.toNat)
  else .invalidFrame .fcMismatch

/-- The response parser of DECRTU after the check of the entries (R134). -/
def parseRtu (p : Params) (b : Bytes) (outstanding : List Entry) : ParseResult :=
  if b.length < 5 then .invalidFrame .short
  else if crcHolds b = false then .invalidFrame .crc
  else
    match selectEntries (fun e => e.unit == byteAt b 0) outstanding with
    | [] => .invalidFrame .noMatchUnit
    | [(e, k)] => parsePdu p ⟨k, byteAt b 0, byteAt b 1, none⟩ e b 1 5
    | _ => .invalidFrame .ambiguous

/-- The response parser of DECTCP after the check of the entries (R135). The unit identifier, `b[6]`, is reported and
not checked (R136). -/
def parseTcp (p : Params) (b : Bytes) (outstanding : List Entry) : ParseResult :=
  if b.length < 9 then .invalidFrame .short
  else
    let t := be16 (byteAt b 0) (byteAt b 1)
    match selectEntries (fun e => e.tid == t) outstanding with
    | [] => .invalidFrame .noMatchTid
    | [(e, k)] =>
      if be16 (byteAt b 2) (byteAt b 3) ≠ 0 then .invalidFrame .protocolId
      else if (be16 (byteAt b 4) (byteAt b 5)).toNat ≠ b.length - 6 then .invalidFrame .lengthField
      else parsePdu p ⟨k, byteAt b 6, byteAt b 7, some t⟩ e b 7 9
    | _ => .invalidFrame .ambiguous

/-- The request parser (R140). The fields are reported as they are on the wire; no range is checked. -/
def parseRequest (b : Bytes) : RequestResult :=
  if b.length < 8 then .invalidFrame .short
  else if crcHolds b = false then .invalidFrame .crc
  else if b.length ≠ 8 then .invalidFrame .length
  else if byteAt b 1 ≠ 0x03 ∧ byteAt b 1 ≠ 0x04 then .invalidFrame .fcMismatch
  else
    .validRequest (byteAt b 0) (byteAt b 1) (if byteAt b 1 = 0x03 then 0 else 1)
      (be16 (byteAt b 2) (byteAt b 3)) (be16 (byteAt b 4) (byteAt b 5))

/-- DECRTU with given parameters (R132, R134). -/
def decodeRtuWith (p : Params) (frame : Bytes) (outstanding : List Entry) (s : State) : StepOutcome :=
  if entriesLegal outstanding then finish (.parse (parseRtu p frame outstanding)) s
  else fail .illegalOperand s

/-- DECTCP with given parameters (R132, R135). -/
def decodeTcpWith (p : Params) (frame : Bytes) (outstanding : List Entry) (s : State) : StepOutcome :=
  if entriesLegal outstanding then finish (.parse (parseTcp p frame outstanding)) s
  else fail .illegalOperand s

/-- A response PDU taken in by the decode command of its framing. -/
def receiveWith (p : Params) (envelope : Envelope) (pdu : Bytes) (outstanding : List Entry) (s : State) :
    StepOutcome :=
  match envelope with
  | .rtu unit => decodeRtuWith p (rtuFrame unit pdu) outstanding s
  | .tcp tid unit => decodeTcpWith p (tcpFrame tid unit pdu) outstanding s

/-- DECRTU (R134). -/
def execDecrtu (frame : Bytes) (outstanding : List Entry) (s : State) : StepOutcome :=
  decodeRtuWith Config.params frame outstanding s

/-- DECTCP (R135). -/
def execDectcp (frame : Bytes) (outstanding : List Entry) (s : State) : StepOutcome :=
  decodeTcpWith Config.params frame outstanding s

/-- PRSRTUQ (R140): always OK. -/
def execPrsrtuq (frame : Bytes) (s : State) : StepOutcome := finish (.request (parseRequest frame)) s

/-- RSP_READ_HOLDING (30_encoding R64, 42_parse R134): a success response PDU with function code 0x03, taken in by the
decode command of its framing. -/
def execRspReadHolding (envelope : Envelope) (data : Bytes) (outstanding : List Entry) (s : State) :
    StepOutcome :=
  receiveWith Config.params envelope (responsePdu 0x03 data) outstanding s

/-- RSP_READ_INPUT (R64, R134): a success response PDU with function code 0x04. -/
def execRspReadInput (envelope : Envelope) (data : Bytes) (outstanding : List Entry) (s : State) :
    StepOutcome :=
  receiveWith Config.params envelope (responsePdu 0x04 data) outstanding s

/-- EXC_READ_HOLDING (R65, R134): an exception response PDU with function code 0x83. -/
def execExcReadHolding (envelope : Envelope) (code : Byte) (outstanding : List Entry) (s : State) :
    StepOutcome :=
  receiveWith Config.params envelope (exceptionPdu 0x03 code) outstanding s

/-- EXC_READ_INPUT (R65, R134): an exception response PDU with function code 0x84. -/
def execExcReadInput (envelope : Envelope) (code : Byte) (outstanding : List Entry) (s : State) :
    StepOutcome :=
  receiveWith Config.params envelope (exceptionPdu 0x04 code) outstanding s

end Sys2Proof.Machine
end

