-- ==== Sys2Proof/Machine/System.lean ====
section
/-! DEFINITION. The control commands (spec/44_system): RESET, TIDLD, TIDRD, and the answer to a reserved opcode. -/

namespace Sys2Proof.Machine

/-- RESET with given parameters (R190): TID is TID_INIT again. -/
def resetWith (p : Params) (s : State) : StepOutcome := finish .none (setTid p.tidInit s)

/-- RESET (R190). -/
def execReset (s : State) : StepOutcome := resetWith Config.params s

/-- TIDLD (R191): every value is legal. -/
def execTidld (v : Word) (s : State) : StepOutcome := finish .none (setTid v s)

/-- TIDRD (R192): the identifier the next successful ENCTCP will use. -/
def execTidrd (s : State) : StepOutcome := finish (.tid s.tid) s

/-- A reserved opcode (R193): ILLEGAL_COMMAND, no result, no state written. -/
def illegalCommand (s : State) : StepOutcome := fail .illegalCommand s

end Sys2Proof.Machine
end

