-- ==== Sys2Proof/Machine/ValueDecode.lean ====
section
/-! DEFINITION. The register value decoder (spec/43_value_decode): VDEC and its seven formats. It reads and writes no
TID (R174). -/

namespace Sys2Proof.Machine

/-- INT16 (R163): the first two bytes, big-endian, signed. -/
def decodeInt16 : Bytes → FormatResult
  | r0 :: r1 :: _ => .value (.int (sext16 (be16 r0 r1)))
  | _ => .insufficientData

/-- INT32BE (R164): the first four bytes, the register at `r[0..1]` most significant, signed. -/
def decodeInt32be : Bytes → FormatResult
  | r0 :: r1 :: r2 :: r3 :: _ => .value (.int (sext32 (be32 r0 r1 r2 r3)))
  | _ => .insufficientData

/-- INT32WS (R165, R175): the two 16-bit registers change places, the bytes within each keep their order. -/
def decodeInt32ws : Bytes → FormatResult
  | r0 :: r1 :: r2 :: r3 :: _ => .value (.int (sext32 (be32 r2 r3 r0 r1)))
  | _ => .insufficientData

/-- FLOAT16 (R166): the binary16 datum of the first two bytes, big-endian, every bit kept (R170). -/
def decodeFloat16 : Bytes → FormatResult
  | r0 :: r1 :: _ => .value (.float16 (be16 r0 r1))
  | _ => .insufficientData

/-- FLOAT32 (R167): the binary32 datum of the first four bytes, big-endian, no word swap, every bit kept (R170). -/
def decodeFloat32 : Bytes → FormatResult
  | r0 :: r1 :: r2 :: r3 :: _ => .value (.float32 (be32 r0 r1 r2 r3))
  | _ => .insufficientData

/-- `digit(d)` (R171): '0'..'9', then 'A'..'F'. -/
def hexDigit (d : BitVec 4) : Char :=
  if d.toNat < 10 then Char.ofNat (0x30 + d.toNat) else Char.ofNat (0x41 + (d.toNat - 10))

/-- The two digits of a byte, high half first (R171). -/
def hexByte (b : Byte) : List Char := [hexDigit (b.extractLsb' 4 4), hexDigit (b.extractLsb' 0 4)]

/-- HEX (R171): two upper-case digits per byte of the whole of `r`, which has at least one byte. -/
def decodeHex : Bytes → FormatResult
  | [] => .insufficientData
  | b :: r => .value (.hex ((b :: r).flatMap hexByte))

/-- `latin1(b)`: the character U+00bb (R172). -/
def latin1 (b : Byte) : Char := Char.ofNat b.toNat

/-- The bytes less the zero bytes at the end; leading and interior ones are kept (R172). -/
def trimZeros (r : Bytes) : Bytes := (r.reverse.dropWhile (· == 0)).reverse

/-- STRING (R172): Latin-1, without the trailing zero bytes; `r` has at least one byte. -/
def decodeString : Bytes → FormatResult
  | [] => .insufficientData
  | b :: r => .value (.text ((trimZeros (b :: r)).map latin1))

/-- `decode_j`: the rule of each format (R160). -/
def decodeFormat : Format → Bytes → FormatResult
  | .int16, r => decodeInt16 r
  | .int32be, r => decodeInt32be r
  | .int32ws, r => decodeInt32ws r
  | .float16, r => decodeFloat16 r
  | .float32, r => decodeFloat32 r
  | .hex, r => decodeHex r
  | .string, r => decodeString r

/-- The selected formats in ascending bit order (R161). -/
def selectedFormats (fmask : Byte) : List Format := allFormats.filter (fun f => fmask.getLsbD (formatBit f))

/-- VDEC (R160): bit 7 of the mask is refused (R161); each selected format is decoded on its own (R162). -/
def decodeValues (raw : Bytes) (fmask : Byte) (s : State) : StepOutcome :=
  if fmask.getLsbD 7 then fail .illegalOperand s
  else finish (.formats ((selectedFormats fmask).map (fun f => (f, decodeFormat f raw)))) s

/-- VDEC with one format selected: one entry (R161). -/
def decodeOne (f : Format) (raw : Bytes) (s : State) : StepOutcome := finish (.formats [(f, decodeFormat f raw)]) s

/-- VDEC (R160). -/
def execVdec (raw : Bytes) (fmask : Byte) (s : State) : StepOutcome := decodeValues raw fmask s

/-- VDEC.INT16 (R163). -/
def execVdecInt16 (raw : Bytes) (s : State) : StepOutcome := decodeOne .int16 raw s

/-- VDEC.INT32BE (R164). -/
def execVdecInt32be (raw : Bytes) (s : State) : StepOutcome := decodeOne .int32be raw s

/-- VDEC.INT32WS (R165). -/
def execVdecInt32ws (raw : Bytes) (s : State) : StepOutcome := decodeOne .int32ws raw s

/-- VDEC.FLOAT16 (R166). -/
def execVdecFloat16 (raw : Bytes) (s : State) : StepOutcome := decodeOne .float16 raw s

/-- VDEC.FLOAT32 (R167). -/
def execVdecFloat32 (raw : Bytes) (s : State) : StepOutcome := decodeOne .float32 raw s

/-- VDEC.HEX (R171). -/
def execVdecHex (raw : Bytes) (s : State) : StepOutcome := decodeOne .hex raw s

/-- VDEC.STRING (R172). -/
def execVdecString (raw : Bytes) (s : State) : StepOutcome := decodeOne .string raw s

/-- An IEEE 754 datum as R168 and R169 name them. A subnormal or normal is `(-1)^sign * mantissa * 2^exponent`. -/
inductive Datum where
  | zero (sign : Bool)
  | subnormal (sign : Bool) (mantissa : Nat) (exponent : Int)
  | normal (sign : Bool) (mantissa : Nat) (exponent : Int)
  | infinity (sign : Bool)
  | nan (sign : Bool) (fraction : Nat) (quiet : Bool)
  deriving DecidableEq, Repr

/-- `binary16(bits)` (R168). -/
def binary16 (bits : Word) : Datum :=
  let s := bits.getLsbD 15
  let e := (bits.extractLsb' 10 5).toNat
  let f := (bits.extractLsb' 0 10).toNat
  if e = 0 then (if f = 0 then .zero s else .subnormal s f (-24))
  else if e = 31 then (if f = 0 then .infinity s else .nan s f (bits.getLsbD 9))
  else .normal s (1024 + f) ((e : Int) - 25)

/-- `binary32(bits)` (R169). -/
def binary32 (bits : BitVec 32) : Datum :=
  let s := bits.getLsbD 31
  let e := (bits.extractLsb' 23 8).toNat
  let f := (bits.extractLsb' 0 23).toNat
  if e = 0 then (if f = 0 then .zero s else .subnormal s f (-149))
  else if e = 255 then (if f = 0 then .infinity s else .nan s f (bits.getLsbD 22))
  else .normal s (8388608 + f) ((e : Int) - 150)

/-- The datum of a float value (R170: the bit pattern together with the function of R168 or R169). -/
def valueDatum : Value → Option Datum
  | .float16 bits => some (binary16 bits)
  | .float32 bits => some (binary32 bits)
  | .int _ => none
  | .hex _ => none
  | .text _ => none

/-- The exact number a datum stands for; none for an infinity or a NaN. -/
def datumNumber : Datum → Option ℚ
  | .zero _ => some 0
  | .subnormal s m e => some ((if s then -1 else 1) * m * (2 : ℚ) ^ e)
  | .normal s m e => some ((if s then -1 else 1) * m * (2 : ℚ) ^ e)
  | .infinity _ => none
  | .nan _ _ _ => none

end Sys2Proof.Machine
end

