-- ==== Sys2Proof/Machine/Dispatch.lean ====
section
/-! DEFINITION. exec: one arm per instruction, each one call of its meaning. -/

namespace Sys2Proof.Machine

def exec (i : Instr) (s : State) : Host.Outcome State Fault Refusal :=
  match i with
  | .crc16 data => Sys2Proof.Machine.execCrc16 data s
  | .crcchk frame => Sys2Proof.Machine.execCrcchk frame s
  | .encrtu unit rtype addr count => Sys2Proof.Machine.execEncrtu unit rtype addr count s
  | .enctcp unit rtype addr count => Sys2Proof.Machine.execEnctcp unit rtype addr count s
  | .decrtu frame outstanding => Sys2Proof.Machine.execDecrtu frame outstanding s
  | .dectcp frame outstanding => Sys2Proof.Machine.execDectcp frame outstanding s
  | .prsrtuq frame => Sys2Proof.Machine.execPrsrtuq frame s
  | .vdec raw fmask => Sys2Proof.Machine.execVdec raw fmask s
  | .reset => Sys2Proof.Machine.execReset s
  | .tidld v => Sys2Proof.Machine.execTidld v s
  | .tidrd => Sys2Proof.Machine.execTidrd s
  | .reqReadHolding framing unit addr count => Sys2Proof.Machine.execReqReadHolding framing unit addr count s
  | .reqReadInput framing unit addr count => Sys2Proof.Machine.execReqReadInput framing unit addr count s
  | .rspReadHolding envelope data outstanding => Sys2Proof.Machine.execRspReadHolding envelope data outstanding s
  | .rspReadInput envelope data outstanding => Sys2Proof.Machine.execRspReadInput envelope data outstanding s
  | .excReadHolding envelope code outstanding => Sys2Proof.Machine.execExcReadHolding envelope code outstanding s
  | .excReadInput envelope code outstanding => Sys2Proof.Machine.execExcReadInput envelope code outstanding s
  | .vdecInt16 raw => Sys2Proof.Machine.execVdecInt16 raw s
  | .vdecInt32be raw => Sys2Proof.Machine.execVdecInt32be raw s
  | .vdecInt32ws raw => Sys2Proof.Machine.execVdecInt32ws raw s
  | .vdecFloat16 raw => Sys2Proof.Machine.execVdecFloat16 raw s
  | .vdecFloat32 raw => Sys2Proof.Machine.execVdecFloat32 raw s
  | .vdecHex raw => Sys2Proof.Machine.execVdecHex raw s
  | .vdecString raw => Sys2Proof.Machine.execVdecString raw s

end Sys2Proof.Machine
end

