-- ==== Sys2Proof/Machine/Step.lean ====
section
/-! DEFINITION. One step of the machine: the block takes the next command from the channel and carries it out, whole
(spec/00_scope R6, 20_memory R48 and R51). -/

namespace Sys2Proof.Machine

/-- One step. A whole command is taken off the channel and executed. A reserved opcode is taken off and answered
ILLEGAL_COMMAND, and the block then takes the next command as usual (44_system R193). With no whole command on the
channel the block waits, and nothing changes (70_reset R242; log 5). -/
def step (s : State) : Host.Outcome State Fault Refusal :=
  match decode s.input with
  | .command i rest => exec i (leaveInput rest s)
  | .reserved _ rest => illegalCommand (leaveInput rest s)
  | .waiting => .next s

/-- `s` with the instruction of an opcode-table word at the front of the channel (log 6). -/
def State.withFetchWord (s : State) (nbits w : Nat) : State := putFirst (tableDescriptor nbits w) s

end Sys2Proof.Machine
end

