-- ==== Sys2Proof/Machine/Asm.lean ====
section
/-! DEFINITION. The assembler text of spec/30_encoding R82 and R83: one command per line, comments from ';', decimal or
0x-prefixed numbers, byte sequences in brackets, entries in parentheses and lists of entries in braces. -/

namespace Sys2Proof

/-- The tokens of a line. -/
inductive Token where
  | word (w : List Char)
  | openBracket
  | closeBracket
  | openBrace
  | closeBrace
  | openParen
  | closeParen
  | comma
  | bar
  | other (c : Char)
  deriving DecidableEq, Repr

/-- What one line is. -/
inductive AsmLine where
  /-- Only spaces and a comment. -/
  | blank
  | command (i : Instr)
  /-- Not in the grammar of R82. -/
  | malformed
  deriving DecidableEq, Repr

/-- The token of a character that stands for itself; the braces are given by their code points. -/
def symbolToken (c : Char) : Token :=
  if c = '[' then .openBracket
  else if c = ']' then .closeBracket
  else if c.toNat = 0x7B then .openBrace
  else if c.toNat = 0x7D then .closeBrace
  else if c = '(' then .openParen
  else if c = ')' then .closeParen
  else if c = ',' then .comma
  else if c = '|' then .bar
  else .other c

/-- The word gathered so far, as a token. -/
def wordToken (acc : List Char) : List Token := if acc = [] then [] else [.word acc]

/-- Cuts a line into tokens; `acc` is the word being read. A ';' ends the line. -/
def tokenize (acc : List Char) : List Char → List Token
  | [] => wordToken acc
  | c :: cs =>
    if c = ';' then wordToken acc
    else if c.isAlphanum then tokenize (acc ++ [c]) cs
    else if c.isWhitespace then wordToken acc ++ tokenize [] cs
    else wordToken acc ++ symbolToken c :: tokenize [] cs

/-- The value of a digit, upper or lower case. -/
def digitValue (c : Char) : Option Nat :=
  if '0' ≤ c ∧ c ≤ '9' then some (c.toNat - 0x30)
  else if 'A' ≤ c ∧ c ≤ 'F' then some (c.toNat - 0x41 + 10)
  else if 'a' ≤ c ∧ c ≤ 'f' then some (c.toNat - 0x61 + 10)
  else none

/-- The digits of a number in a base, most significant first, continuing from `acc`. -/
def digitsValue (base acc : Nat) : List Char → Option Nat
  | [] => some acc
  | c :: cs =>
    match digitValue c with
    | none => none
    | some d => if d < base then digitsValue base (acc * base + d) cs else none

/-- A number: decimal, or hexadecimal after `0x`. -/
def numberValue : List Char → Option Nat
  | [] => none
  | ['0', 'x'] => none
  | '0' :: 'x' :: cs => digitsValue 16 0 cs
  | cs => digitsValue 10 0 cs

/-- A number that fits `w` bits. -/
def fieldValue (w : Nat) (cs : List Char) : Option (BitVec w) :=
  match numberValue cs with
  | none => none
  | some n => if n < 2 ^ w then some (BitVec.ofNat w n) else none

/-- `H` or `I`: `rtype` 0 or 1 (R82). -/
def rtypeValue (cs : List Char) : Option Byte :=
  if cs = ['H'] then some 0 else if cs = ['I'] then some 1 else none

/-- The bytes up to the closing bracket, each two hexadecimal digits. -/
def bytesTokens : List Token → Option (Bytes × List Token)
  | .closeBracket :: rest => some ([], rest)
  | .word [a, b] :: rest =>
    match digitsValue 16 0 [a, b], bytesTokens rest with
    | some n, some (bs, after) => some (BitVec.ofNat 8 n :: bs, after)
    | _, _ => none
  | _ => none

/-- A byte sequence in brackets. -/
def bytesOperand : List Token → Option (Bytes × List Token)
  | .openBracket :: rest => bytesTokens rest
  | _ => none

/-- An entry's four words. -/
def entryValue (tid unit rtype count : List Char) : Option Entry :=
  match fieldValue 16 tid, fieldValue 8 unit, rtypeValue rtype, fieldValue 16 count with
  | some t, some u, some r, some c => some ⟨t, u, r, c⟩
  | _, _, _, _ => none

/-- The entries up to the closing brace, with commas between them. -/
def entriesTokens : List Token → Option (List Entry × List Token)
  | .openParen :: .word tid :: .comma :: .word unit :: .comma :: .word rtype :: .comma :: .word count ::
      .closeParen :: .closeBrace :: rest =>
    match entryValue tid unit rtype count with
    | none => none
    | some e => some ([e], rest)
  | .openParen :: .word tid :: .comma :: .word unit :: .comma :: .word rtype :: .comma :: .word count ::
      .closeParen :: .comma :: rest =>
    match entryValue tid unit rtype count, entriesTokens rest with
    | some e, some (es, after) => some (e :: es, after)
    | _, _ => none
  | _ => none

/-- A list of entries in braces. -/
def entriesOperand : List Token → Option (List Entry × List Token)
  | .openBrace :: .closeBrace :: rest => some ([], rest)
  | .openBrace :: rest => entriesTokens rest
  | _ => none

/-- The name of a format in the text (R75, R82). -/
def formatWord : Format → List Char
  | .int16 => ['I', 'N', 'T', '1', '6']
  | .int32be => ['I', 'N', 'T', '3', '2', 'B', 'E']
  | .int32ws => ['I', 'N', 'T', '3', '2', 'W', 'S']
  | .float16 => ['F', 'L', 'O', 'A', 'T', '1', '6']
  | .float32 => ['F', 'L', 'O', 'A', 'T', '3', '2']
  | .hex => ['H', 'E', 'X']
  | .string => ['S', 'T', 'R', 'I', 'N', 'G']

/-- The mask of one format name. -/
def formatValue (cs : List Char) : Option Byte :=
  (allFormats.find? (fun f => formatWord f == cs)).map formatMask

/-- Format names joined by bars, to the end of the line. -/
def maskTokens : List Token → Option Byte
  | [.word w] => formatValue w
  | .word w :: .bar :: rest =>
    match formatValue w, maskTokens rest with
    | some m, some ms => some (m ||| ms)
    | _, _ => none
  | _ => none

/-- A format mask: names, `ALL` (0x7F) or `NONE` (0x00) (R82, R83). -/
def maskOperand (ts : List Token) : Option Byte :=
  if ts = [.word ['A', 'L', 'L']] then some 0x7F
  else if ts = [.word ['N', 'O', 'N', 'E']] then some 0x00
  else maskTokens ts

/-- A line whose one operand is a byte sequence. -/
def frameLine (make : Bytes → Instr) (ts : List Token) : AsmLine :=
  match bytesOperand ts with
  | some (b, []) => .command (make b)
  | _ => .malformed

/-- `unit, H|I, addr, count`. -/
def requestLine (make : Byte → Byte → Word → Word → Instr) : List Token → AsmLine
  | [.word unit, .comma, .word rtype, .comma, .word addr, .comma, .word count] =>
    match fieldValue 8 unit, rtypeValue rtype, fieldValue 16 addr, fieldValue 16 count with
    | some u, some r, some a, some c => .command (make u r a c)
    | _, _, _, _ => .malformed
  | _ => .malformed

/-- `[frame], (entries in braces)`. -/
def responseLine (make : Bytes → List Entry → Instr) (ts : List Token) : AsmLine :=
  match bytesOperand ts with
  | some (b, .comma :: rest) =>
    match entriesOperand rest with
    | some (es, []) => .command (make b es)
    | _ => .malformed
  | _ => .malformed

/-- `[raw], fmt|fmt|...`. -/
def vdecLine (ts : List Token) : AsmLine :=
  match bytesOperand ts with
  | some (b, .comma :: rest) =>
    match maskOperand rest with
    | some m => .command (.vdec b m)
    | none => .malformed
  | _ => .malformed

/-- `v`. -/
def tidldLine : List Token → AsmLine
  | [.word v] =>
    match fieldValue 16 v with
    | some n => .command (.tidld n)
    | none => .malformed
  | _ => .malformed

/-- A line with no operands. -/
def plainLine (i : Instr) (ts : List Token) : AsmLine := if ts = [] then .command i else .malformed

/-- The command of a line's tokens, by its mnemonic (R82). -/
def commandLine (name : List Char) (ts : List Token) : AsmLine :=
  if name = ['C', 'R', 'C', '1', '6'] then frameLine .crc16 ts
  else if name = ['C', 'R', 'C', 'C', 'H', 'K'] then frameLine .crcchk ts
  else if name = ['E', 'N', 'C', 'R', 'T', 'U'] then requestLine .encrtu ts
  else if name = ['E', 'N', 'C', 'T', 'C', 'P'] then requestLine .enctcp ts
  else if name = ['D', 'E', 'C', 'R', 'T', 'U'] then responseLine .decrtu ts
  else if name = ['D', 'E', 'C', 'T', 'C', 'P'] then responseLine .dectcp ts
  else if name = ['P', 'R', 'S', 'R', 'T', 'U', 'Q'] then frameLine .prsrtuq ts
  else if name = ['V', 'D', 'E', 'C'] then vdecLine ts
  else if name = ['R', 'E', 'S', 'E', 'T'] then plainLine .reset ts
  else if name = ['T', 'I', 'D', 'L', 'D'] then tidldLine ts
  else if name = ['T', 'I', 'D', 'R', 'D'] then plainLine .tidrd ts
  else .malformed

/-- One line of text (R82). -/
def assembleLine (line : List Char) : AsmLine :=
  match tokenize [] line with
  | [] => .blank
  | .word name :: ts => commandLine name ts
  | _ => .malformed

end Sys2Proof
end

