-- ==== Sys2Proof/Machine/Runner.lean ====
section
/-! DEFINITION. The environment of the block: the host software of spec/60_exceptions R220 to R231, which lies outside the
block and drives it through its commands alone. None of this is block state (10_state R28, R30), and `step` uses none of
it. One transaction is run at a time; the other agents' outstanding entries are an argument (log 7). -/

namespace Sys2Proof.Machine

/-- What the transport's `receive` gives the host (R220): one candidate frame, or a transport failure (R229). -/
inductive Received where
  | frame (b : Bytes)
  | failure
  deriving DecidableEq, Repr

/-- A request as the host holds it (41_marshal R110). The time unit of `timeout` is the host's. -/
structure Request where
  unit : Byte
  rtype : Byte
  addr : Word
  count : Word
  timeout : Nat
  maxRetries : Nat
  deriving DecidableEq, Repr

/-- The outcome of a transaction (R203, R221, R224, R229). `refused` is a request that the block would not encode: its
status is passed on, and no frame is sent (log 7). -/
inductive TransactionOutcome where
  | success (raw : Bytes)
  | deviceError (code : Byte)
  | gatewayError (code : Byte)
  | noResponse
  | transportFailure
  | refused (status : Status)
  deriving DecidableEq, Repr

/-- What one attempt came to: an outcome, or none when its timeout expired (R221); the frames sent; the block after. -/
structure Attempt where
  outcome : Option TransactionOutcome
  sent : List Bytes
  block : State
  deriving DecidableEq, Repr

/-- What one transaction came to. `waited` is the time of its expired attempts. -/
structure Transaction where
  outcome : TransactionOutcome
  sent : List Bytes
  waited : Nat
  block : State
  deriving DecidableEq, Repr

/-- The block after a command; it never stops (R208). -/
def blockAfter (s : State) : StepOutcome → State
  | .next t => t
  | .fault _ => s
  | .refused _ => s

/-- The frame an encode command returned, with the identifier for the entry (30_encoding R76: 0 for RTU, which ignores
it). -/
def encodedFrame : Option Response → Option (Bytes × Word)
  | some ⟨.ok, .frame b⟩ => some (b, 0)
  | some ⟨.ok, .frameTid b t⟩ => some (b, t)
  | _ => none

/-- The status of a response, OK when there is none. -/
def responseStatus : Option Response → Status
  | some r => r.status
  | none => .ok

/-- The decode command of a framing, on one candidate frame (R220, 30_encoding R71). -/
def decodeCandidate (p : Params) (framing : Framing) (b : Bytes) (outstanding : List Entry) (s : State) :
    StepOutcome :=
  match framing with
  | .rtu => decodeRtuWith p b outstanding s
  | .tcp => decodeTcpWith p b outstanding s

/-- The outcome a decode result gives the request whose entry is at position `mine`: events (1) and (2) of R221. Any
other result does not end the attempt (R222). -/
def terminalOutcome (mine : Nat) : Option Response → Option TransactionOutcome
  | some ⟨.ok, .parse (.success m raw)⟩ => if m.entry = mine then some (.success raw) else none
  | some ⟨.ok, .parse (.deviceError m code)⟩ => if m.entry = mine then some (.deviceError code) else none
  | some ⟨.ok, .parse (.gatewayError m code)⟩ => if m.entry = mine then some (.gatewayError code) else none
  | _ => none

/-- Receives and decodes candidate frames until an event ends the attempt (R221, R222). The list is what arrives before
the timeout expires; its end is the expiry. -/
def awaitResponse (p : Params) (framing : Framing) (outstanding : List Entry) (mine : Nat) :
    List Received → State → Option TransactionOutcome × State
  | [], s => (none, s)
  | .failure :: _, s => (some .transportFailure, s)
  | .frame b :: later, s =>
    let s' := blockAfter s (decodeCandidate p framing b outstanding s)
    match terminalOutcome mine s'.response with
    | some o => (some o, s')
    | none => awaitResponse p framing outstanding mine later s'

/-- One attempt (R221): encode, add the entry to the outstanding list, send, await. The list goes back to `others` when
the attempt ends, so a late answer to a failed TCP attempt matches nothing (R225, R226). -/
def attempt (p : Params) (framing : Framing) (req : Request) (others : List Entry)
    (arrivals : List Received) (s : State) : Attempt :=
  let s' := blockAfter s (marshalWith p framing req.unit req.rtype req.addr req.count s)
  match encodedFrame s'.response with
  | none => ⟨some (.refused (responseStatus s'.response)), [], s'⟩
  | some (b, tid) =>
    let outstanding := others ++ [⟨tid, req.unit, req.rtype, req.count⟩]
    let r := awaitResponse p framing outstanding others.length arrivals s'
    ⟨r.1, [b], r.2⟩

/-- The attempts that are left: a terminal outcome ends the transaction and is not retried (R223), an expired attempt is
followed by the next one, and with none left the outcome is NoResponse (R224). `script` is what arrives during each
attempt, nothing where it has ended. -/
def attempts (p : Params) (framing : Framing) (req : Request) (others : List Entry) :
    Nat → List (List Received) → State → Transaction
  | 0, _, s => ⟨.noResponse, [], 0, s⟩
  | left + 1, script, s =>
    let a := attempt p framing req others (script.headD []) s
    match a.outcome with
    | some o => ⟨o, a.sent, 0, a.block⟩
    | none =>
      let t := attempts p framing req others left script.tail a.block
      ⟨t.outcome, a.sent ++ t.sent, req.timeout + t.waited, t.block⟩

/-- One transaction: at most `1 + max_retries` attempts (R224). -/
def transaction (p : Params) (framing : Framing) (req : Request) (others : List Entry)
    (script : List (List Received)) (s : State) : Transaction :=
  attempts p framing req others (1 + req.maxRetries) script s

/-- The report of a scan (R230): one entry per unit, keyed by unit id; whether it ran to its end; and whether a transport
failure ended it (R229). -/
structure ScanResult where
  entries : List (Byte × TransactionOutcome)
  complete : Bool
  failed : Bool
  block : State
  deriving DecidableEq, Repr

/-- One transaction per unit, in the order of the list, with the probe's other fields unchanged. A transport failure is
fatal: it ends the scan at once and is reported beside the entries so far (R229). -/
def scanUnits (p : Params) (framing : Framing) (probe : Request) (script : Byte → List (List Received)) :
    List Byte → State → List (Byte × TransactionOutcome) × Bool × State
  | [], s => ([], false, s)
  | u :: us, s =>
    let t := transaction p framing ⟨u, probe.rtype, probe.addr, probe.count, probe.timeout, probe.maxRetries⟩
      [] (script u) s
    if t.outcome = .transportFailure then ([], true, t.block)
    else
      let r := scanUnits p framing probe script us t.block
      ((u, t.outcome) :: r.1, r.2)

/-- The unit ids of a range, both ends included (R230). -/
def unitRange (first last : Nat) : List Byte := (List.range' first (last + 1 - first)).map (BitVec.ofNat 8)

/-- `scan_devices` (R230). A cancellation stops the issue of new requests after `limit` units and the result is then
tagged as incomplete; none lets the scan run to its end. -/
def scanDevices (p : Params) (framing : Framing) (first last : Nat) (probe : Request) (limit : Option Nat)
    (script : Byte → List (List Received)) (s : State) : ScanResult :=
  let units := unitRange first last
  let issued := match limit with
    | none => units
    | some n => units.take n
  let r := scanUnits p framing probe script issued s
  ⟨r.1, r.1.length == units.length, r.2.1, r.2.2⟩

/-- "device found" for a success or either error; only NoResponse is "no device" (R230). A refused request or a broken
transport says nothing about the device. -/
def deviceReport : TransactionOutcome → Option Bool
  | .success _ => some true
  | .deviceError _ => some true
  | .gatewayError _ => some true
  | .noResponse => some false
  | .transportFailure => none
  | .refused _ => none

/-- `read_register` (R231): one transaction, and on success VDEC of its raw bytes with the mask of the requested
formats. -/
def readRegister (p : Params) (framing : Framing) (req : Request) (others : List Entry) (fmask : Byte)
    (script : List (List Received)) (s : State) : TransactionOutcome × Option Response × State :=
  let t := transaction p framing req others script s
  match t.outcome with
  | .success raw =>
    let s' := blockAfter t.block (decodeValues raw fmask t.block)
    (t.outcome, s'.response, s')
  | o => (o, none, t.block)

/-- The matching key of an outstanding entry: `tid` for TCP and `unit` for RTU (R226). -/
def matchingKey (framing : Framing) (e : Entry) : Word :=
  match framing with
  | .rtu => e.unit.setWidth 16
  | .tcp => e.tid

/-- The discipline the host must keep (R226): no two entries with the same matching key. -/
def keysDistinct (framing : Framing) (outstanding : List Entry) : Bool :=
  decide (outstanding.map (matchingKey framing)).Nodup

end Sys2Proof.Machine
end

