-- ==== Sys2Proof/Safety.lean ====
section
/-! DEFINITION. What the statements are about: the records a command may return (spec/30_encoding R77, 60_exceptions R200
to R204), and a stretch of commands carried out one after the other (20_memory R51, R53). -/

namespace Sys2Proof.Safety

open Sys2Proof.Machine

/-- The value a format may give (43_value_decode R163 to R172): the range of an integer format, the width of a float
format, two upper-case hexadecimal digits per byte, characters below U+0100. -/
def ValueLegal : Format → Value → Prop
  | .int16, .int v => -32768 ≤ v ∧ v ≤ 32767
  | .int32be, .int v => -2147483648 ≤ v ∧ v ≤ 2147483647
  | .int32ws, .int v => -2147483648 ≤ v ∧ v ≤ 2147483647
  | .float16, .float16 _ => True
  | .float32, .float32 _ => True
  | .hex, .hex ds => 2 ≤ ds.length ∧ ds.length % 2 = 0 ∧ ∀ c ∈ ds, ('0' ≤ c ∧ c ≤ '9') ∨ ('A' ≤ c ∧ c ≤ 'F')
  | .string, .text cs => ∀ c ∈ cs, c.toNat ≤ 255
  | _, _ => False

/-- One entry of VDEC's result (R161, R162). -/
def FormatEntryLegal : Format × FormatResult → Prop
  | (f, .value v) => ValueLegal f v
  | (_, .insufficientData) => True

/-- A `ParseResult` DECRTU or DECTCP may give (R77, R134, R135): a success carries a read function code and an even number
of bytes, at most 254; an error carries an exception function code and the class of its code; an invalid frame has a
reason. -/
def ParseLegal (p : Params) : ParseResult → Prop
  | .success m raw => (m.fc = 0x03 ∨ m.fc = 0x04) ∧ raw.length % 2 = 0 ∧ raw.length ≤ 254
  | .deviceError m code => (m.fc = 0x83 ∨ m.fc = 0x84) ∧ code ∉ p.gatewayCodes
  | .gatewayError m code => (m.fc = 0x83 ∨ m.fc = 0x84) ∧ code ∈ p.gatewayCodes
  | .invalidFrame reason => reason ≠ .clear

/-- A `RequestResult` PRSRTUQ may give (R77, R140). -/
def RequestLegal : RequestResult → Prop
  | .validRequest _ fc rtype _ _ => (fc = 0x03 ∧ rtype = 0) ∨ (fc = 0x04 ∧ rtype = 1)
  | .invalidFrame reason => reason = .short ∨ reason = .crc ∨ reason = .length ∨ reason = .fcMismatch

/-- A result record a command may give with status OK. -/
def ResultLegal (p : Params) : Result → Prop
  | .none => True
  | .crc _ => True
  | .check true reason => reason = .clear
  | .check false reason => reason = .short ∨ reason = .crc
  | .frame b => b.length = 8 ∧ crcHolds b = true
  | .frameTid b t =>
    b.length = 12 ∧ be16 (byteAt b 0) (byteAt b 1) = t ∧ be16 (byteAt b 2) (byteAt b 3) = 0 ∧
      be16 (byteAt b 4) (byteAt b 5) = 6
  | .parse r => ParseLegal p r
  | .request r => RequestLegal r
  | .formats out =>
    (out.map Prod.fst).Sublist allFormats ∧ ∀ e ∈ out, FormatEntryLegal e
  | .tid _ => True

/-- A response a command may give: no result with any status but OK (R204), and a legal record with OK. -/
def ResponseLegal (p : Params) (r : Response) : Prop :=
  (r.status ≠ .ok → r.result = .none) ∧ ResultLegal p r.result

/-- The invariant of the machine: what the last command returned is a legal response. -/
def Inv (s : State) : Prop := ∀ r, s.response = some r → ResponseLegal Config.params r

/-- A command that leaves the identifier sequence alone but for allocations: neither TIDLD nor RESET (R53). -/
def KeepsSequence (i : Instr) : Prop := i ≠ .reset ∧ ∀ v, i ≠ .tidld v

/-- Carries out commands one after the other, whichever agents issued them (R51): the responses in order, and the state
after the last. -/
def carryOut : List Instr → State → List Response × State
  | [], s => ([], s)
  | i :: is, s =>
    match exec i s with
    | .next t =>
      let r := carryOut is t
      (t.response.toList ++ r.1, r.2)
    | .fault _ => ([], s)
    | .refused _ => ([], s)

/-- The identifier a response returned, for a successful ENCTCP. -/
def allocatedTid (r : Response) : Option Word :=
  match r.result with
  | .frameTid _ t => some t
  | _ => none

/-- The identifiers a stretch of commands allocated, in order. -/
def allocatedTids (is : List Instr) (s : State) : List Word := (carryOut is s).1.filterMap allocatedTid

/-- The state after a command that returned a status and a result and wrote nothing else: TID and the channel are as
before. -/
def returning (status : Status) (result : Result) (s : State) : State :=
  { s with response := some ⟨status, result⟩ }

/-- The function code on the wire of a legal `rtype`: 0x03 for Holding, 0x04 for Input (R74, R112). -/
def RequestsFc (rtype fc : Byte) : Prop := (rtype = 0 ∧ fc = 0x03) ∨ (rtype = 1 ∧ fc = 0x04)

/-- A request that passes the checks of 41_marshal R111 under given parameters. -/
def LegalRequest (p : Params) (unit rtype : Byte) (count : Word) : Prop :=
  (rtype = 0 ∨ rtype = 1) ∧ (1 ≤ unit.toNat ∧ unit.toNat ≤ 247) ∧ (1 ≤ count.toNat ∧ count.toNat ≤ p.maxCount)

/-- Every entry of an outstanding list has a legal `rtype` (42_parse R132). -/
def RtypesLegal (outstanding : List Entry) : Prop := ∀ e ∈ outstanding, e.rtype = 0 ∨ e.rtype = 1

/-- Entry `e`, at position `k`, is the one entry of the list that has a property (R132). -/
def OnlyMatch (key : Entry → Prop) (outstanding : List Entry) (k : Nat) (e : Entry) : Prop :=
  outstanding[k]? = some e ∧ key e ∧ ∀ j e', outstanding[j]? = some e' → key e' → j = k

/-- Two entries of the list, at different positions, have a property (R132). -/
def TwoMatches (key : Entry → Prop) (outstanding : List Entry) : Prop :=
  ∃ (j k : Nat) (e e' : Entry), j ≠ k ∧ outstanding[j]? = some e ∧ outstanding[k]? = some e' ∧ key e ∧ key e'

/-- The key of the entry that an envelope's frame is matched by (R132): the unit for RTU, the identifier for TCP. -/
def EnvelopeMatches : Envelope → Entry → Prop
  | .rtu unit, e => e.unit = unit
  | .tcp tid _, e => e.tid = tid

/-- What an accepted response in an envelope reports (30_encoding R77). -/
def matchedIn (envelope : Envelope) (k : Nat) (fc : Byte) : Matched :=
  match envelope with
  | .rtu unit => ⟨k, unit, fc, none⟩
  | .tcp tid unit => ⟨k, unit, fc, some tid⟩

/-- The row of the opcode table that selects one format alone. -/
def formatRow : Format → Bytes → Instr
  | .int16, raw => .vdecInt16 raw
  | .int32be, raw => .vdecInt32be raw
  | .int32ws, raw => .vdecInt32ws raw
  | .float16, raw => .vdecFloat16 raw
  | .float32, raw => .vdecFloat32 raw
  | .hex, raw => .vdecHex raw
  | .string, raw => .vdecString raw

/-- `sext_N(v)` on plain numbers (00_scope R9): `v` below `2^(N-1)`, else `v - 2^N`. -/
def twosComplement (n v : Nat) : Int := if v < 2 ^ (n - 1) then v else (v : Int) - 2 ^ n

/-- The sixteen digits of HEX in order (43_value_decode R171). -/
def hexDigits : List Char := ['0', '1', '2', '3', '4', '5', '6', '7', '8', '9', 'A', 'B', 'C', 'D', 'E', 'F']

/-- One shift of the CRC register on plain numbers (40_crc R100). -/
def crcShift (c : Nat) : Nat := if c % 2 = 1 then (c / 2) ^^^ 0xA001 else c / 2

/-- The pseudocode of 40_crc R100 on plain numbers. -/
def crcNumber (data : Bytes) : Nat :=
  data.foldl (fun c b => crcShift^[8] (c ^^^ b.toNat)) 0xFFFF

end Sys2Proof.Safety
end

