-- ==== Sys2Proof/Certificates/Slice0/Obligations.lean ====
section
/-! DEFINITION. The statements for the provers. Each docstring names the rules of spec/ it formalises. `exec … = .next
(returning … s)` says at once that the instruction completes, what it returns, and that TID and the command channel are as
before. The spec marks some of these rules as its own inferences, '[derived: …]': R53, R104, R105, R106, R119, R139, R141,
R142, R175, R201, R208, R242 and R249. A statement about one of them has basis 'derived' and cites the rules it rests
on. -/

open Sys2Proof Sys2Proof.Machine Sys2Proof.Safety

/-! ### Reset, the step and the command encoding -/

/-- 10_state R22, 70_reset R240 and R241: a new block instance has TID = TID_INIT, and the RESET command leaves the same
TID from every state. That the channel and the result are empty in a new instance is the model's choice (logs 2, 3). -/
def Obligations.ResetGivesTidInit : Prop :=
  State.reset = ⟨Config.params.tidInit, [], none⟩ ∧
    ∀ s, exec .reset s = .next (returning .ok .none { s with tid := State.reset.tid })

/-- 00_scope R7: MAX_COUNT lies in 1..65535, so a request for one register is legal whatever its value. -/
def Obligations.ParametersAreLegal : Prop :=
  Config.params.Legal ∧ ∀ unit : Byte, 1 ≤ unit.toNat → unit.toNat ≤ 247 →
    LegalRequest Config.params unit 0 1 ∧ LegalRequest Config.params unit 1 1

/-- 30_encoding R78: the decoder reads back the descriptor of every command that has a serialized form, with every operand
at every value, and leaves the bytes after it. A PDU or format row is read back as the command that carries it (log 4). -/
def Obligations.DecodeReadsEncodedCommand : Prop :=
  ∀ (i : Instr) (rest : Bytes), wellFormed i = true → decode (encode i ++ rest) = .command (coreCommand i) rest

/-- 30_encoding R78: a command has one serialized form. Whatever bytes decode to a command are its encoding, and that
command is well-formed and one of the eleven of R73. -/
def Obligations.DecodedBytesAreTheEncoding : Prop :=
  ∀ (b : Bytes) (i : Instr) (rest : Bytes), decode b = .command i rest →
    b = encode i ++ rest ∧ wellFormed i = true ∧ coreCommand i = i

/-- 95_test_vectors P1 to P5: descriptors written out in the spec decode to the commands they stand for (30_encoding R73,
R78). -/
def Obligations.SpecDescriptorsDecode : Prop :=
  decode [0x11, 0x01, 0x00, 0x00, 0x00, 0x00, 0x02] = .command (.enctcp 1 0 0 2) [] ∧
  decode [0x10, 0x02, 0x01, 0x00, 0x10, 0x00, 0x02] = .command (.encrtu 2 1 0x0010 2) [] ∧
  decode [0x22, 0x00, 0x08, 0x11, 0x03, 0x00, 0x6B, 0x00, 0x03, 0x76, 0x87] =
    .command (.prsrtuq [0x11, 0x03, 0x00, 0x6B, 0x00, 0x03, 0x76, 0x87]) [] ∧
  decode [0x20, 0x01, 0x00, 0x0B, 0x11, 0x03, 0x06, 0xAE, 0x41, 0x56, 0x52, 0x43, 0x40, 0x49, 0xAD,
      0x00, 0x00, 0x11, 0x00, 0x00, 0x03] =
    .command (.decrtu [0x11, 0x03, 0x06, 0xAE, 0x41, 0x56, 0x52, 0x43, 0x40, 0x49, 0xAD] [⟨0, 0x11, 0, 3⟩]) [] ∧
  decode [0x30, 0x36, 0x00, 0x04, 0x41, 0x20, 0x00, 0x00] = .command (.vdec [0x41, 0x20, 0x00, 0x00] 0x36) [] ∧
  decode [0x41, 0xFF, 0xFF] = .command (.tidld 0xFFFF) [] ∧
  decode [0x40] = .command .reset [] ∧
  decode [0x42] = .command .tidrd [] ∧
  decode [0x50] = .reserved 0x50 []

/-- 00_scope R6: a step carries out the next command whole. When the bytes on the channel decode to a command, the step
is `exec` of it at the state with those bytes taken off. -/
def Obligations.StepRunsDecodedCommand : Prop :=
  ∀ (s : State) (i : Instr) (rest : Bytes), decode s.input = .command i rest →
    step s = exec i { s with input := rest }

/-- 30_encoding R78, 00_scope R6: with the descriptor of any well-formed instruction at the front of the channel, the step
is `exec` of that instruction, the PDU and format rows included. -/
def Obligations.StepRunsEncodedInstruction : Prop :=
  ∀ (s : State) (i : Instr) (rest : Bytes), wellFormed i = true → s.input = encode i ++ rest →
    step s = exec i { s with input := rest }

/-- 44_system R193: a command whose opcode is not in the table of 30_encoding R73 ends with ILLEGAL_COMMAND, has no result,
takes no operand bytes and writes no state. -/
def Obligations.ReservedOpcodeIsIllegalCommand : Prop :=
  ∀ (s : State) (opcode : Byte) (rest : Bytes), s.input = opcode :: rest →
    opcode ∉ [0x01#8, 0x02#8, 0x10#8, 0x11#8, 0x20#8, 0x21#8, 0x22#8, 0x30#8, 0x40#8, 0x41#8, 0x42#8] →
    step s = .next ⟨s.tid, rest, some ⟨.illegalCommand, .none⟩⟩

/-- 70_reset R242 for an empty channel. For a descriptor that has not arrived whole, waiting is the model's choice (log
5). -/
def Obligations.StepWaitsForWholeCommand : Prop :=
  ∀ (s : State) (i : Instr) (k : Nat), wellFormed i = true → k < (encode i).length →
    s.input = (encode i).take k → step s = .next s

/-- 60_exceptions R205 and R208, 44_system R193: nothing traps, halts or sticks. Every instruction and every step answer a
next state. -/
def Obligations.NothingStopsTheBlock : Prop :=
  (∀ (i : Instr) (s : State), ∃ t, exec i s = .next t) ∧ ∀ s : State, ∃ t, step s = .next t

/-- A PDU row or a format row does exactly what the command that carries it does (log 4; 30_encoding R73, R75). -/
def Obligations.RowDoesWhatItsCommandDoes : Prop :=
  ∀ (i : Instr) (s : State), exec i s = exec (coreCommand i) s

/-! ### CRC -/

/-- 40_crc R100, R102: CRC16 returns the value of the rule's pseudocode, computed on plain numbers, and leaves all else. -/
def Obligations.Crc16ReturnsTheAlgorithmsValue : Prop :=
  ∀ (data : Bytes) (s : State), exec (.crc16 data) s = .next (returning .ok (.crc (BitVec.ofNat 16 (crcNumber data))) s) ∧
    crcNumber data < 65536

/-- 40_crc R106: the check value. -/
def Obligations.Crc16CheckValue : Prop :=
  ∀ s : State, exec (.crc16 [0x31, 0x32, 0x33, 0x34, 0x35, 0x36, 0x37, 0x38, 0x39]) s =
    .next (returning .ok (.crc 0x4B37) s)

/-- 40_crc R104: data followed by its own CRC, low byte first, has CRC zero. -/
def Obligations.CrcOfFrameWithItsCrcIsZero : Prop :=
  ∀ (data : Bytes) (s : State), ∃ c, exec (.crc16 data) s = .next (returning .ok (.crc c) s) ∧
    exec (.crc16 (data ++ [lo8 c, hi8 c])) s = .next (returning .ok (.crc 0x0000) s)

/-- 40_crc R103: CRCCHK reports a match exactly for a sequence followed by its own CRC, SHORT below two bytes, and CRC for
every other frame. -/
def Obligations.CrcchkMatchesExactlyItsOwnCrc : Prop :=
  ∀ (frame : Bytes) (s : State),
    (frame.length < 2 → exec (.crcchk frame) s = .next (returning .ok (.check false .short) s)) ∧
    (∀ d, frame = d ++ [lo8 (crc16 d), hi8 (crc16 d)] →
      exec (.crcchk frame) s = .next (returning .ok (.check true .clear) s)) ∧
    (2 ≤ frame.length → (∀ d, frame ≠ d ++ [lo8 (crc16 d), hi8 (crc16 d)]) →
      exec (.crcchk frame) s = .next (returning .ok (.check false .crc) s))

/-- 40_crc R105: changing one byte of a frame that CRCCHK accepts, whether data or CRC, to another value always makes the
check fail; a change to two bytes can go undetected. -/
def Obligations.SingleByteChangeFailsCrc : Prop :=
  (∀ (frame : Bytes) (k : Nat) (b : Byte) (s : State),
    exec (.crcchk frame) s = .next (returning .ok (.check true .clear) s) →
    k < frame.length → b ≠ byteAt frame k →
    exec (.crcchk (frame.set k b)) s = .next (returning .ok (.check false .crc) s)) ∧
  ∃ (frame : Bytes) (j k : Nat) (b c : Byte), j < k ∧ k < frame.length ∧ b ≠ byteAt frame j ∧ c ≠ byteAt frame k ∧
    ∀ s, exec (.crcchk frame) s = .next (returning .ok (.check true .clear) s) ∧
      exec (.crcchk ((frame.set j b).set k c)) s = .next (returning .ok (.check true .clear) s)

/-! ### Request marshaller -/

/-- 41_marshal R113: ENCRTU of a legal request returns the eight bytes of the frame, and leaves all else. -/
def Obligations.EncrtuBuildsFrame : Prop :=
  ∀ (unit rtype fc : Byte) (addr count : Word) (s : State), LegalRequest Config.params unit rtype count →
    RequestsFc rtype fc →
    exec (.encrtu unit rtype addr count) s = .next (returning .ok (.frame
      [unit, fc, hi8 addr, lo8 addr, hi8 count, lo8 count,
        lo8 (crc16 [unit, fc, hi8 addr, lo8 addr, hi8 count, lo8 count]),
        hi8 (crc16 [unit, fc, hi8 addr, lo8 addr, hi8 count, lo8 count])]) s)

/-- 41_marshal R114: ENCTCP of a legal request returns the twelve bytes of the frame with the current TID, and only TID
changes besides. -/
def Obligations.EnctcpBuildsFrame : Prop :=
  ∀ (unit rtype fc : Byte) (addr count : Word) (s : State), LegalRequest Config.params unit rtype count →
    RequestsFc rtype fc →
    exec (.enctcp unit rtype addr count) s = .next (returning .ok (.frameTid
      [hi8 s.tid, lo8 s.tid, 0x00, 0x00, 0x00, 0x06, unit, fc, hi8 addr, lo8 addr, hi8 count, lo8 count] s.tid)
      { s with tid := s.tid + 1 })

/-- 41_marshal R115: allocation returns the current TID and then adds one modulo 2^16; 0xFFFF is followed by 0x0000. -/
def Obligations.TidIncrementsAndWraps : Prop :=
  ∀ (unit rtype : Byte) (addr count : Word) (s : State), LegalRequest Config.params unit rtype count →
    ∃ frame t, exec (.enctcp unit rtype addr count) s = .next t ∧
      t.response = some ⟨.ok, .frameTid frame s.tid⟩ ∧ t.tid.toNat = (s.tid.toNat + 1) % 65536 ∧
      (s.tid = 0xFFFF → t.tid = 0x0000)

/-- 41_marshal R111 and R116, 60_exceptions R204 and R206: the checks of an encode command in their order, on every
operand that fails one; a refused command returns no result and writes no state. -/
def Obligations.EncodeRefusesInOrder : Prop :=
  ∀ (unit rtype : Byte) (addr count : Word) (s : State) (i : Instr),
    i = .encrtu unit rtype addr count ∨ i = .enctcp unit rtype addr count →
    (rtype ≠ 0 → rtype ≠ 1 → exec i s = .next (returning .illegalOperand .none s)) ∧
    (rtype = 0 ∨ rtype = 1 → unit.toNat = 0 ∨ 247 < unit.toNat →
      exec i s = .next (returning .illegalUnit .none s)) ∧
    (rtype = 0 ∨ rtype = 1 → 1 ≤ unit.toNat → unit.toNat ≤ 247 →
      count.toNat = 0 ∨ Config.params.maxCount < count.toNat →
      exec i s = .next (returning .illegalCount .none s))

/-- 41_marshal R119: issuing ENCTCP again for the same request gives a new identifier and a frame that differs from the
first in bytes 0 and 1 only; ENCRTU depends on its operands alone. -/
def Obligations.RetriedRequestFrames : Prop :=
  ∀ (unit rtype : Byte) (addr count : Word) (s s' : State), LegalRequest Config.params unit rtype count →
    (∃ f f' t t', exec (.enctcp unit rtype addr count) s = .next t ∧ exec (.enctcp unit rtype addr count) t = .next t' ∧
      t.response = some ⟨.ok, .frameTid f s.tid⟩ ∧ t'.response = some ⟨.ok, .frameTid f' (s.tid + 1)⟩ ∧
      f ≠ f' ∧ f.drop 2 = f'.drop 2) ∧
    ∃ f t t', exec (.encrtu unit rtype addr count) s = .next t ∧ exec (.encrtu unit rtype addr count) s' = .next t' ∧
      t.response = some ⟨.ok, .frame f⟩ ∧ t'.response = some ⟨.ok, .frame f⟩

/-- 30_encoding R63, R66, R68 and 41_marshal R113, R114: the two request PDU rows in both framings, for a legal request
(the reading of these rows is log 4). -/
def Obligations.RequestRowsBuildTheirPdu : Prop :=
  ∀ (unit : Byte) (addr count : Word) (s : State),
    (LegalRequest Config.params unit 0 count →
      exec (.reqReadHolding .rtu unit addr count) s = .next (returning .ok (.frame
        (appendCrc [unit, 0x03, hi8 addr, lo8 addr, hi8 count, lo8 count])) s) ∧
      exec (.reqReadHolding .tcp unit addr count) s = .next (returning .ok (.frameTid
        [hi8 s.tid, lo8 s.tid, 0, 0, 0, 6, unit, 0x03, hi8 addr, lo8 addr, hi8 count, lo8 count] s.tid)
        { s with tid := s.tid + 1 })) ∧
    (LegalRequest Config.params unit 1 count →
      exec (.reqReadInput .rtu unit addr count) s = .next (returning .ok (.frame
        (appendCrc [unit, 0x04, hi8 addr, lo8 addr, hi8 count, lo8 count])) s) ∧
      exec (.reqReadInput .tcp unit addr count) s = .next (returning .ok (.frameTid
        [hi8 s.tid, lo8 s.tid, 0, 0, 0, 6, unit, 0x04, hi8 addr, lo8 addr, hi8 count, lo8 count] s.tid)
        { s with tid := s.tid + 1 }))

/-- 20_memory R53: in a stretch of commands with fewer than 65536 successful ENCTCP and no TIDLD or RESET, no two return
the same identifier, whichever agents issue them. -/
def Obligations.AllocatedIdentifiersAreDistinct : Prop :=
  ∀ (is : List Instr) (s : State), (∀ i ∈ is, KeepsSequence i) → (allocatedTids is s).length < 65536 →
    (allocatedTids is s).Nodup

/-! ### Response and request parsers -/

/-- 42_parse R130 and R132, 60_exceptions R206: a decode command whose entries have legal `rtype`s ends with OK and one
`ParseResult`, on every byte sequence; with any other entry it ends with ILLEGAL_OPERAND and no result, whatever the
frame. -/
def Obligations.DecodeCommandsAreTotal : Prop :=
  ∀ (frame : Bytes) (outstanding : List Entry) (s : State) (i : Instr),
    i = .decrtu frame outstanding ∨ i = .dectcp frame outstanding →
    (RtypesLegal outstanding → ∃ r, exec i s = .next (returning .ok (.parse r) s)) ∧
    (¬ RtypesLegal outstanding → exec i s = .next (returning .illegalOperand .none s))

/-- 42_parse R134: DECRTU accepts a success response that its one matched entry asked for. -/
def Obligations.DecrtuAcceptsSuccess : Prop :=
  ∀ (unit fc : Byte) (raw : Bytes) (outstanding : List Entry) (k : Nat) (e : Entry) (s : State),
    RtypesLegal outstanding → OnlyMatch (fun e => e.unit = unit) outstanding k e → RequestsFc e.rtype fc →
    raw.length = 2 * e.count.toNat → raw.length ≤ 255 →
    exec (.decrtu (appendCrc (unit :: fc :: BitVec.ofNat 8 raw.length :: raw)) outstanding) s =
      .next (returning .ok (.parse (.success ⟨k, unit, fc, none⟩ raw)) s)

/-- 42_parse R134, R139 and R131: whatever DECRTU reports as a success is such a frame, byte for byte: unit, function code,
byte count, the register data and the CRC over them. -/
def Obligations.DecrtuSuccessIsTheResponse : Prop :=
  ∀ (frame : Bytes) (outstanding : List Entry) (m : Matched) (raw : Bytes) (s : State),
    exec (.decrtu frame outstanding) s = .next (returning .ok (.parse (.success m raw)) s) →
    ∃ e, OnlyMatch (fun e => e.unit = m.unit) outstanding m.entry e ∧ RequestsFc e.rtype m.fc ∧ m.tid = none ∧
      raw.length = 2 * e.count.toNat ∧ raw.length ≤ 255 ∧
      frame = appendCrc (m.unit :: m.fc :: BitVec.ofNat 8 raw.length :: raw)

/-- 42_parse R135, R136: DECTCP accepts a success response that its one matched entry asked for, with any unit
identifier. -/
def Obligations.DectcpAcceptsSuccess : Prop :=
  ∀ (tid : Word) (unit fc : Byte) (raw : Bytes) (outstanding : List Entry) (k : Nat) (e : Entry) (s : State),
    RtypesLegal outstanding → OnlyMatch (fun e => e.tid = tid) outstanding k e → RequestsFc e.rtype fc →
    raw.length = 2 * e.count.toNat → raw.length ≤ 255 →
    exec (.dectcp ([hi8 tid, lo8 tid, 0, 0, hi8 (BitVec.ofNat 16 (3 + raw.length)),
        lo8 (BitVec.ofNat 16 (3 + raw.length)), unit, fc, BitVec.ofNat 8 raw.length] ++ raw) outstanding) s =
      .next (returning .ok (.parse (.success ⟨k, unit, fc, some tid⟩ raw)) s)

/-- 42_parse R135, R139 and R131: whatever DECTCP reports as a success is such a frame, byte for byte. -/
def Obligations.DectcpSuccessIsTheResponse : Prop :=
  ∀ (frame : Bytes) (outstanding : List Entry) (m : Matched) (raw : Bytes) (s : State),
    exec (.dectcp frame outstanding) s = .next (returning .ok (.parse (.success m raw)) s) →
    ∃ e tid, OnlyMatch (fun e => e.tid = tid) outstanding m.entry e ∧ RequestsFc e.rtype m.fc ∧ m.tid = some tid ∧
      raw.length = 2 * e.count.toNat ∧ raw.length ≤ 255 ∧
      frame = [hi8 tid, lo8 tid, 0, 0, hi8 (BitVec.ofNat 16 (3 + raw.length)),
        lo8 (BitVec.ofNat 16 (3 + raw.length)), m.unit, m.fc, BitVec.ofNat 8 raw.length] ++ raw

/-- 42_parse R133, R134, R135: an exception response to the one matched entry is an error of the class of its code, every
code accepted, in both framings. -/
def Obligations.ExceptionResponsesAreClassified : Prop :=
  ∀ (envelope : Envelope) (fc code : Byte) (outstanding : List Entry) (k : Nat) (e : Entry) (s : State) (i : Instr),
    RtypesLegal outstanding → OnlyMatch (EnvelopeMatches envelope) outstanding k e → RequestsFc e.rtype fc →
    i = (match envelope with
      | .rtu unit => .decrtu (appendCrc [unit, fc ||| 0x80, code]) outstanding
      | .tcp tid unit => .dectcp [hi8 tid, lo8 tid, 0, 0, 0, 3, unit, fc ||| 0x80, code] outstanding) →
    exec i s = .next (returning .ok (.parse (if code ∈ Config.params.gatewayCodes
      then .gatewayError (matchedIn envelope k (fc ||| 0x80)) code
      else .deviceError (matchedIn envelope k (fc ||| 0x80)) code)) s)

/-- 42_parse R134 and R139: whatever DECRTU reports as a device or gateway error is a five-byte exception response to the
one matched entry, and the class is the code's. -/
def Obligations.DecrtuErrorIsTheException : Prop :=
  ∀ (frame : Bytes) (outstanding : List Entry) (m : Matched) (code : Byte) (r : ParseResult) (s : State),
    r = .deviceError m code ∨ r = .gatewayError m code →
    exec (.decrtu frame outstanding) s = .next (returning .ok (.parse r) s) →
    (∃ e fc, OnlyMatch (fun e => e.unit = m.unit) outstanding m.entry e ∧ RequestsFc e.rtype fc ∧
      m.fc = fc ||| 0x80 ∧ m.tid = none ∧ frame = appendCrc [m.unit, fc ||| 0x80, code]) ∧
    (r = .gatewayError m code ↔ code ∈ Config.params.gatewayCodes)

/-- 42_parse R134, 60_exceptions R207: the reason of DECRTU is that of the first failing check, on every frame and legal
list. `f` is the function code of the matched entry. -/
def Obligations.DecrtuReasonsInOrder : Prop :=
  ∀ (b : Bytes) (outstanding : List Entry) (s : State), RtypesLegal outstanding →
    (b.length < 5 → exec (.decrtu b outstanding) s = .next (returning .ok (.parse (.invalidFrame .short)) s)) ∧
    (5 ≤ b.length → (∀ d, b ≠ appendCrc d) →
      exec (.decrtu b outstanding) s = .next (returning .ok (.parse (.invalidFrame .crc)) s)) ∧
    (5 ≤ b.length → (∃ d, b = appendCrc d) →
      ((∀ e ∈ outstanding, e.unit ≠ byteAt b 0) →
        exec (.decrtu b outstanding) s = .next (returning .ok (.parse (.invalidFrame .noMatchUnit)) s)) ∧
      (TwoMatches (fun e => e.unit = byteAt b 0) outstanding →
        exec (.decrtu b outstanding) s = .next (returning .ok (.parse (.invalidFrame .ambiguous)) s)) ∧
      ∀ k e f, OnlyMatch (fun e => e.unit = byteAt b 0) outstanding k e → RequestsFc e.rtype f →
        (byteAt b 1 ≠ f → byteAt b 1 ≠ f ||| 0x80 →
          exec (.decrtu b outstanding) s = .next (returning .ok (.parse (.invalidFrame .fcMismatch)) s)) ∧
        (byteAt b 1 = f ||| 0x80 → b.length ≠ 5 →
          exec (.decrtu b outstanding) s = .next (returning .ok (.parse (.invalidFrame .length)) s)) ∧
        (byteAt b 1 = f → (byteAt b 2).toNat ≠ 2 * e.count.toNat →
          exec (.decrtu b outstanding) s = .next (returning .ok (.parse (.invalidFrame .byteCount)) s)) ∧
        (byteAt b 1 = f → (byteAt b 2).toNat = 2 * e.count.toNat → b.length ≠ 5 + (byteAt b 2).toNat →
          exec (.decrtu b outstanding) s = .next (returning .ok (.parse (.invalidFrame .length)) s)))

/-- 42_parse R135, 60_exceptions R207: the reason of DECTCP is that of the first failing check, on every frame and legal
list. -/
def Obligations.DectcpReasonsInOrder : Prop :=
  ∀ (b : Bytes) (outstanding : List Entry) (s : State) (tid : Word), RtypesLegal outstanding →
    tid = be16 (byteAt b 0) (byteAt b 1) →
    (b.length < 9 → exec (.dectcp b outstanding) s = .next (returning .ok (.parse (.invalidFrame .short)) s)) ∧
    (9 ≤ b.length →
      ((∀ e ∈ outstanding, e.tid ≠ tid) →
        exec (.dectcp b outstanding) s = .next (returning .ok (.parse (.invalidFrame .noMatchTid)) s)) ∧
      (TwoMatches (fun e => e.tid = tid) outstanding →
        exec (.dectcp b outstanding) s = .next (returning .ok (.parse (.invalidFrame .ambiguous)) s)) ∧
      ∀ k e f, OnlyMatch (fun e => e.tid = tid) outstanding k e → RequestsFc e.rtype f →
        (be16 (byteAt b 2) (byteAt b 3) ≠ 0 →
          exec (.dectcp b outstanding) s = .next (returning .ok (.parse (.invalidFrame .protocolId)) s)) ∧
        (be16 (byteAt b 2) (byteAt b 3) = 0 →
          ((be16 (byteAt b 4) (byteAt b 5)).toNat ≠ b.length - 6 →
            exec (.dectcp b outstanding) s = .next (returning .ok (.parse (.invalidFrame .lengthField)) s)) ∧
          ((be16 (byteAt b 4) (byteAt b 5)).toNat = b.length - 6 →
            (byteAt b 7 ≠ f → byteAt b 7 ≠ f ||| 0x80 →
              exec (.dectcp b outstanding) s = .next (returning .ok (.parse (.invalidFrame .fcMismatch)) s)) ∧
            (byteAt b 7 = f ||| 0x80 → b.length ≠ 9 →
              exec (.dectcp b outstanding) s = .next (returning .ok (.parse (.invalidFrame .length)) s)) ∧
            (byteAt b 7 = f → (byteAt b 8).toNat ≠ 2 * e.count.toNat →
              exec (.dectcp b outstanding) s = .next (returning .ok (.parse (.invalidFrame .byteCount)) s)) ∧
            (byteAt b 7 = f → (byteAt b 8).toNat = 2 * e.count.toNat → b.length ≠ 9 + (byteAt b 8).toNat →
              exec (.dectcp b outstanding) s = .next (returning .ok (.parse (.invalidFrame .length)) s)))))

/-- 30_encoding R64, 42_parse R134, R135: the two success response PDU rows in both envelopes, when the one matched entry
asked for that function code and that much data (the reading of these rows is log 4). -/
def Obligations.ResponseRowsAreAccepted : Prop :=
  ∀ (envelope : Envelope) (raw : Bytes) (outstanding : List Entry) (k : Nat) (e : Entry) (s : State),
    RtypesLegal outstanding → OnlyMatch (EnvelopeMatches envelope) outstanding k e →
    raw.length = 2 * e.count.toNat → raw.length ≤ 255 →
    (e.rtype = 0 → exec (.rspReadHolding envelope raw outstanding) s =
      .next (returning .ok (.parse (.success (matchedIn envelope k 0x03) raw)) s)) ∧
    (e.rtype = 1 → exec (.rspReadInput envelope raw outstanding) s =
      .next (returning .ok (.parse (.success (matchedIn envelope k 0x04) raw)) s))

/-- 30_encoding R65, 42_parse R133: the two exception response PDU rows in both envelopes (the reading of these rows is
log 4). -/
def Obligations.ExceptionRowsAreClassified : Prop :=
  ∀ (envelope : Envelope) (code : Byte) (outstanding : List Entry) (k : Nat) (e : Entry) (s : State),
    RtypesLegal outstanding → OnlyMatch (EnvelopeMatches envelope) outstanding k e →
    (e.rtype = 0 → exec (.excReadHolding envelope code outstanding) s = .next (returning .ok (.parse
      (if code ∈ Config.params.gatewayCodes then .gatewayError (matchedIn envelope k 0x83) code
        else .deviceError (matchedIn envelope k 0x83) code)) s)) ∧
    (e.rtype = 1 → exec (.excReadInput envelope code outstanding) s = .next (returning .ok (.parse
      (if code ∈ Config.params.gatewayCodes then .gatewayError (matchedIn envelope k 0x84) code
        else .deviceError (matchedIn envelope k 0x84) code)) s))

/-- 42_parse R140: PRSRTUQ of every byte sequence: a request frame gives back its fields as they are on the wire, with no
range checked, and any other frame the reason of the first failing check. -/
def Obligations.PrsrtuqReadsRequestFrames : Prop :=
  ∀ s : State,
    (∀ (unit fc rtype : Byte) (addr count : Word), RequestsFc rtype fc →
      exec (.prsrtuq (appendCrc [unit, fc, hi8 addr, lo8 addr, hi8 count, lo8 count])) s =
        .next (returning .ok (.request (.validRequest unit fc rtype addr count)) s)) ∧
    ∀ b : Bytes,
      (b.length < 8 → exec (.prsrtuq b) s = .next (returning .ok (.request (.invalidFrame .short)) s)) ∧
      (8 ≤ b.length → (∀ d, b ≠ appendCrc d) →
        exec (.prsrtuq b) s = .next (returning .ok (.request (.invalidFrame .crc)) s)) ∧
      (8 < b.length → (∃ d, b = appendCrc d) →
        exec (.prsrtuq b) s = .next (returning .ok (.request (.invalidFrame .length)) s)) ∧
      (b.length = 8 → (∃ d, b = appendCrc d) → byteAt b 1 ≠ 0x03 → byteAt b 1 ≠ 0x04 →
        exec (.prsrtuq b) s = .next (returning .ok (.request (.invalidFrame .fcMismatch)) s))

/-- 42_parse R141: PRSRTUQ of the frame ENCRTU returned for a legal request gives back the request, and changing any one
byte of that frame to another value gives INVALID_FRAME with reason CRC. -/
def Obligations.RequestRoundTrip : Prop :=
  ∀ (unit rtype fc : Byte) (addr count : Word) (s : State), LegalRequest Config.params unit rtype count →
    RequestsFc rtype fc →
    ∃ f, exec (.encrtu unit rtype addr count) s = .next (returning .ok (.frame f) s) ∧
      exec (.prsrtuq f) s = .next (returning .ok (.request (.validRequest unit fc rtype addr count)) s) ∧
      ∀ k b, k < f.length → b ≠ byteAt f k →
        exec (.prsrtuq (f.set k b)) s = .next (returning .ok (.request (.invalidFrame .crc)) s)

/-- 42_parse R142: DECRTU, DECTCP and PRSRTUQ neither read nor write TID: from any two states they return the same
response, and TID stays. -/
def Obligations.ParsersIgnoreTid : Prop :=
  ∀ (i : Instr) (frame : Bytes) (outstanding : List Entry) (s s' : State),
    i = .decrtu frame outstanding ∨ i = .dectcp frame outstanding ∨ i = .prsrtuq frame →
    ∃ r, exec i s = .next ⟨s.tid, s.input, some r⟩ ∧ exec i s' = .next ⟨s'.tid, s'.input, some r⟩

/-! ### Value decoder -/

/-- 43_value_decode R160, R161, R162: VDEC returns one entry for each bit 0 to 6 of the mask, in ascending bit order, each
the result that format gives when it is selected alone; bit 7 is refused. -/
def Obligations.VdecDecodesSelectedFormats : Prop :=
  ∀ (raw : Bytes) (fmask : Byte) (s : State),
    (fmask.getLsbD 7 = true → exec (.vdec raw fmask) s = .next (returning .illegalOperand .none s)) ∧
    (fmask.getLsbD 7 = false → ∃ out, exec (.vdec raw fmask) s = .next (returning .ok (.formats out) s) ∧
      (out.map Prod.fst).Sublist [.int16, .int32be, .int32ws, .float16, .float32, .hex, .string] ∧
      (∀ f, f ∈ out.map Prod.fst ↔ fmask.getLsbD (formatBit f) = true) ∧
      ∀ f r, (f, r) ∈ out → exec (formatRow f raw) s = .next (returning .ok (.formats [(f, r)]) s))

/-- 43_value_decode R163, R164, R165: the three integer formats on every byte sequence. -/
def Obligations.IntegerFormats : Prop :=
  ∀ (r0 r1 r2 r3 : Byte) (tail raw : Bytes) (s : State),
    exec (.vdecInt16 (r0 :: r1 :: tail)) s = .next (returning .ok (.formats
      [(.int16, .value (.int (twosComplement 16 (r0.toNat * 256 + r1.toNat))))]) s) ∧
    exec (.vdecInt32be (r0 :: r1 :: r2 :: r3 :: tail)) s = .next (returning .ok (.formats
      [(.int32be, .value (.int (twosComplement 32
        (r0.toNat * 2 ^ 24 + r1.toNat * 2 ^ 16 + r2.toNat * 2 ^ 8 + r3.toNat))))]) s) ∧
    exec (.vdecInt32ws (r0 :: r1 :: r2 :: r3 :: tail)) s = .next (returning .ok (.formats
      [(.int32ws, .value (.int (twosComplement 32
        (r2.toNat * 2 ^ 24 + r3.toNat * 2 ^ 16 + r0.toNat * 2 ^ 8 + r1.toNat))))]) s) ∧
    (raw.length < 2 → exec (.vdecInt16 raw) s = .next (returning .ok (.formats [(.int16, .insufficientData)]) s)) ∧
    (raw.length < 4 →
      exec (.vdecInt32be raw) s = .next (returning .ok (.formats [(.int32be, .insufficientData)]) s) ∧
      exec (.vdecInt32ws raw) s = .next (returning .ok (.formats [(.int32ws, .insufficientData)]) s))

/-- 43_value_decode R166, R167, R170: the two float formats keep the bits of the window, big-endian and unswapped. -/
def Obligations.FloatFormats : Prop :=
  ∀ (r0 r1 r2 r3 : Byte) (tail raw : Bytes) (s : State),
    exec (.vdecFloat16 (r0 :: r1 :: tail)) s = .next (returning .ok (.formats
      [(.float16, .value (.float16 (BitVec.ofNat 16 (r0.toNat * 256 + r1.toNat))))]) s) ∧
    exec (.vdecFloat32 (r0 :: r1 :: r2 :: r3 :: tail)) s = .next (returning .ok (.formats
      [(.float32, .value (.float32 (BitVec.ofNat 32
        (r0.toNat * 2 ^ 24 + r1.toNat * 2 ^ 16 + r2.toNat * 2 ^ 8 + r3.toNat))))]) s) ∧
    (raw.length < 2 → exec (.vdecFloat16 raw) s = .next (returning .ok (.formats [(.float16, .insufficientData)]) s)) ∧
    (raw.length < 4 → exec (.vdecFloat32 raw) s = .next (returning .ok (.formats [(.float32, .insufficientData)]) s))

/-- 43_value_decode R168: the datum of every 16-bit pattern, its number taken exactly. -/
def Obligations.Binary16Datum : Prop :=
  ∀ (bits : Word) (s e f : Nat), s = bits.toNat / 2 ^ 15 → e = bits.toNat / 2 ^ 10 % 2 ^ 5 → f = bits.toNat % 2 ^ 10 →
    (e = 0 → f = 0 → binary16 bits = .zero (decide (s = 1))) ∧
    (e = 0 → f ≠ 0 → binary16 bits = .subnormal (decide (s = 1)) f (-24) ∧
      datumNumber (binary16 bits) = some ((-1) ^ s * f * (2 : ℚ) ^ (-24 : Int))) ∧
    (1 ≤ e → e ≤ 30 → binary16 bits = .normal (decide (s = 1)) (1024 + f) ((e : Int) - 25) ∧
      datumNumber (binary16 bits) = some ((-1) ^ s * (1024 + f) * (2 : ℚ) ^ ((e : Int) - 25))) ∧
    (e = 31 → f = 0 → binary16 bits = .infinity (decide (s = 1))) ∧
    (e = 31 → f ≠ 0 → binary16 bits = .nan (decide (s = 1)) f (decide (f / 2 ^ 9 = 1)))

/-- 43_value_decode R169: the datum of every 32-bit pattern, its number taken exactly. -/
def Obligations.Binary32Datum : Prop :=
  ∀ (bits : BitVec 32) (s e f : Nat), s = bits.toNat / 2 ^ 31 → e = bits.toNat / 2 ^ 23 % 2 ^ 8 →
    f = bits.toNat % 2 ^ 23 →
    (e = 0 → f = 0 → binary32 bits = .zero (decide (s = 1))) ∧
    (e = 0 → f ≠ 0 → binary32 bits = .subnormal (decide (s = 1)) f (-149) ∧
      datumNumber (binary32 bits) = some ((-1) ^ s * f * (2 : ℚ) ^ (-149 : Int))) ∧
    (1 ≤ e → e ≤ 254 → binary32 bits = .normal (decide (s = 1)) (2 ^ 23 + f) ((e : Int) - 150) ∧
      datumNumber (binary32 bits) = some ((-1) ^ s * (2 ^ 23 + f) * (2 : ℚ) ^ ((e : Int) - 150))) ∧
    (e = 255 → f = 0 → binary32 bits = .infinity (decide (s = 1))) ∧
    (e = 255 → f ≠ 0 → binary32 bits = .nan (decide (s = 1)) f (decide (f / 2 ^ 22 = 1)))

/-- 43_value_decode R170: no two bit patterns have the same datum: no rounding, no flush of subnormals, no canonical NaN,
both zeros kept apart. -/
def Obligations.FloatDataKeepEveryBit : Prop :=
  Function.Injective binary16 ∧ Function.Injective binary32

/-- 43_value_decode R171: HEX of every byte sequence: two upper-case digits per byte, in order. -/
def Obligations.HexFormat : Prop :=
  ∀ (raw : Bytes) (s : State),
    (raw = [] → exec (.vdecHex raw) s = .next (returning .ok (.formats [(.hex, .insufficientData)]) s)) ∧
    (raw ≠ [] → ∃ ds, exec (.vdecHex raw) s = .next (returning .ok (.formats [(.hex, .value (.hex ds))]) s) ∧
      ds.length = 2 * raw.length ∧
      ∀ k, k < raw.length → ds[2 * k]? = hexDigits[(byteAt raw k).toNat / 16]? ∧
        ds[2 * k + 1]? = hexDigits[(byteAt raw k).toNat % 16]?)

/-- 43_value_decode R172: STRING of every byte sequence: the Latin-1 characters of the bytes, less the zero bytes at the
end and no others. -/
def Obligations.StringFormat : Prop :=
  ∀ (raw : Bytes) (s : State),
    (raw = [] → exec (.vdecString raw) s = .next (returning .ok (.formats [(.string, .insufficientData)]) s)) ∧
    (raw ≠ [] → ∃ kept zeros, raw = kept ++ List.replicate zeros 0 ∧ kept.getLast? ≠ some 0 ∧
      ∃ cs, exec (.vdecString raw) s = .next (returning .ok (.formats [(.string, .value (.text cs))]) s) ∧
        cs.map Char.toNat = kept.map BitVec.toNat)

/-- 43_value_decode R173: bytes after the window do not change a numeric format's result; HEX reads all of `raw`, and so
does STRING up to zero bytes at the end. -/
def Obligations.NumericFormatsReadTheirWindow : Prop :=
  (∀ (f : Format) (window tail : Bytes) (s : State),
    ((f = .int16 ∨ f = .float16) ∧ window.length = 2) ∨
      ((f = .int32be ∨ f = .int32ws ∨ f = .float32) ∧ window.length = 4) →
    exec (formatRow f (window ++ tail)) s = exec (formatRow f window) s) ∧
  (∀ (raw raw' : Bytes) (s : State), exec (.vdecHex raw) s = exec (.vdecHex raw') s → raw = raw') ∧
  ∀ (raw raw' : Bytes) (s : State), raw ≠ [] → raw' ≠ [] → raw.getLast? ≠ some 0 → raw'.getLast? ≠ some 0 →
    exec (.vdecString raw) s = exec (.vdecString raw') s → raw = raw'

/-- 43_value_decode R174: VDEC is a pure function of `raw` and `fmask`: from any two states it returns the same response,
and neither TID nor the channel changes. -/
def Obligations.VdecIsPure : Prop :=
  ∀ (raw : Bytes) (fmask : Byte) (s s' : State),
    ∃ r, exec (.vdec raw fmask) s = .next ⟨s.tid, s.input, some r⟩ ∧
      exec (.vdec raw fmask) s' = .next ⟨s'.tid, s'.input, some r⟩

/-- 43_value_decode R175: INT32WS of four bytes is INT32BE of them with the two registers exchanged, and exchanging them
again gives back INT32BE of the original order. -/
def Obligations.WordSwapExchangesRegisters : Prop :=
  ∀ (r0 r1 r2 r3 : Byte) (tail : Bytes) (s : State), ∃ swapped plain : Int,
    exec (.vdec (r0 :: r1 :: r2 :: r3 :: tail) 0x06) s = .next (returning .ok
      (.formats [(.int32be, .value (.int plain)), (.int32ws, .value (.int swapped))]) s) ∧
    exec (.vdec (r2 :: r3 :: r0 :: r1 :: tail) 0x06) s = .next (returning .ok
      (.formats [(.int32be, .value (.int swapped)), (.int32ws, .value (.int plain))]) s)

/-! ### Control commands and the one register -/

/-- 44_system R190, R191, R192: RESET, TIDLD and TIDRD from every state. -/
def Obligations.ControlCommands : Prop :=
  ∀ (v : Word) (s : State),
    exec .reset s = .next ⟨Config.params.tidInit, s.input, some ⟨.ok, .none⟩⟩ ∧
    exec (.tidld v) s = .next ⟨v, s.input, some ⟨.ok, .none⟩⟩ ∧
    exec .tidrd s = .next ⟨s.tid, s.input, some ⟨.ok, .tid s.tid⟩⟩

/-- 44_system R191, R192 and 70_reset R249: the next command sees the TID that the one before left. After TIDLD, TIDRD
returns the loaded value, and a legal ENCTCP carries it in its frame. -/
def Obligations.NextCommandSeesLoadedTid : Prop :=
  ∀ (v : Word) (unit rtype : Byte) (addr count : Word) (s : State), LegalRequest Config.params unit rtype count →
    ∃ t u, exec (.tidld v) s = .next t ∧ exec .tidrd t = .next (returning .ok (.tid v) t) ∧
      exec (.enctcp unit rtype addr count) t = .next u ∧ u.tid = v + 1 ∧
      ∃ f, u.response = some ⟨.ok, .frameTid f v⟩ ∧ f.take 2 = [hi8 v, lo8 v]

/-- 10_state R21: who writes TID. Whatever an instruction does, the channel is as before, and TID changes only by one
allocation of a successful TCP encode, by TIDLD or by RESET. -/
def Obligations.OnlyThreeCommandsWriteTid : Prop :=
  ∀ (i : Instr) (s t : State), exec i s = .next t → t.input = s.input ∧
    (t.tid = s.tid ∨
      (t.tid = s.tid + 1 ∧ (∃ f, t.response = some ⟨.ok, .frameTid f s.tid⟩) ∧
        ∃ unit rtype addr count, coreCommand i = .enctcp unit rtype addr count) ∨
      i = .tidld t.tid ∨ (i = .reset ∧ t.tid = Config.params.tidInit))

/-- 10_state R21: who reads TID. Every command but ENCTCP and TIDRD (and the TCP form of a request row) returns the same
response from any two states. -/
def Obligations.OnlyTwoCommandsReadTid : Prop :=
  ∀ (i : Instr) (s s' t t' : State), exec i s = .next t → exec i s' = .next t' → i ≠ .tidrd →
    (∀ unit rtype addr count, coreCommand i ≠ .enctcp unit rtype addr count) → t.response = t'.response

/-- 60_exceptions R204: a command that ends with a status other than OK returns no result and writes no state. -/
def Obligations.FailedCommandsWriteNothing : Prop :=
  ∀ (i : Instr) (s t : State) (r : Response), exec i s = .next t → t.response = some r → r.status ≠ .ok →
    t = returning r.status .none s

/-- 60_exceptions R201: which statuses each command can return. -/
def Obligations.StatusesOfEachCommand : Prop :=
  ∀ (i : Instr) (s t : State) (r : Response), exec i s = .next t → t.response = some r →
    r.status ≠ .illegalCommand ∧
    ((∃ b, i = .crc16 b ∨ i = .crcchk b ∨ i = .prsrtuq b) ∨ i = .reset ∨ (∃ v, i = .tidld v) ∨ i = .tidrd →
      r.status = .ok) ∧
    ((∃ b es, i = .decrtu b es ∨ i = .dectcp b es) ∨ (∃ b m, i = .vdec b m) →
      r.status = .ok ∨ r.status = .illegalOperand)

/-- The invariant holds in a new block instance, which has returned nothing yet (log 3). -/
def Obligations.InvariantAtReset : Prop := Inv State.reset

/-- 30_encoding R77, 60_exceptions R202 and R204: every step leaves a legal response: no result with a failed command;
eight bytes with a valid CRC from ENCRTU; twelve bytes with the allocated identifier from ENCTCP; an even number of data
bytes, an exception function code and the code's class, or a reason, from the parsers; formats in ascending order with
values in their range from VDEC. -/
def Obligations.StepKeepsInvariant : Prop :=
  ∀ s t : State, Inv s → step s = .next t → Inv t

/-! ### Assembler text and the environment outside the block (log 7) -/

/-- 30_encoding R82, R83: lines of the programs of 95_test_vectors, and the command each is. -/
def Obligations.AssemblerLines : Prop :=
  assembleLine "ENCTCP 1, H, 0, 2".toList = .command (.enctcp 1 0 0 2) ∧
  assembleLine "TIDLD 0xFFFF ; wrap next".toList = .command (.tidld 0xFFFF) ∧
  assembleLine "PRSRTUQ [11 03 00 6B 00 03 76 87]".toList =
    .command (.prsrtuq [0x11, 0x03, 0x00, 0x6B, 0x00, 0x03, 0x76, 0x87]) ∧
  assembleLine "VDEC [3F 80 00 00], INT32WS|FLOAT32".toList = .command (.vdec [0x3F, 0x80, 0x00, 0x00] 0x14) ∧
  assembleLine "VDEC [01 02], ALL".toList = .command (.vdec [0x01, 0x02] 0x7F) ∧
  assembleLine "   ; only a comment".toList = .blank

/-- 60_exceptions R223 and R224: a transaction of a legal request. NoResponse comes only after `1 + max_retries` requests,
each waited for its whole timeout; any other outcome ends the transaction with the request that brought it. -/
def Obligations.TransactionsRetryOnlyExpiredAttempts : Prop :=
  ∀ (p : Params) (framing : Framing) (req : Request) (others : List Entry) (script : List (List Received)) (s : State)
    (t : Transaction), LegalRequest p req.unit req.rtype req.count → t = transaction p framing req others script s →
    (t.outcome = .noResponse ∧ t.sent.length = 1 + req.maxRetries ∧ t.waited = (1 + req.maxRetries) * req.timeout) ∨
    (t.outcome ≠ .noResponse ∧ 1 ≤ t.sent.length ∧ t.sent.length ≤ 1 + req.maxRetries ∧
      t.waited = (t.sent.length - 1) * req.timeout)

/-- 60_exceptions R223: a device that answers the first request with an exception is not retried, in either framing: one
request is sent, and the outcome is the class of the code. The answer carries the request's unit (RTU), or the identifier
that the request took, with any unit (TCP, 42_parse R136), and no other outstanding request is matched by it. -/
def Obligations.ExceptionResponseIsNotRetried : Prop :=
  ∀ (p : Params) (framing : Framing) (req : Request) (unit fc code : Byte) (others : List Entry)
    (later : List Received) (script : List (List Received)) (s : State) (envelope : Envelope) (response : Bytes)
    (t : Transaction),
    LegalRequest p req.unit req.rtype req.count → RequestsFc req.rtype fc → RtypesLegal others →
    (envelope, response) = (match framing with
      | .rtu => (Envelope.rtu req.unit, appendCrc [req.unit, fc ||| 0x80, code])
      | .tcp => (Envelope.tcp s.tid unit, [hi8 s.tid, lo8 s.tid, 0, 0, 0, 3, unit, fc ||| 0x80, code])) →
    (∀ e ∈ others, ¬ EnvelopeMatches envelope e) →
    t = transaction p framing req others ((.frame response :: later) :: script) s →
    t.sent.length = 1 ∧
      t.outcome = if code ∈ p.gatewayCodes then .gatewayError code else .deviceError code

/-- 60_exceptions R230: a scan that is not cancelled and meets no transport failure returns exactly `end - start + 1`
entries, one for each unit id of the range. -/
def Obligations.ScanReportsEveryUnit : Prop :=
  ∀ (p : Params) (framing : Framing) (first last : Nat) (probe : Request) (script : Byte → List (List Received))
    (s : State), 1 ≤ first → first ≤ last → last ≤ 247 →
    (scanDevices p framing first last probe none script s).failed = false →
    (scanDevices p framing first last probe none script s).complete = true ∧
    (scanDevices p framing first last probe none script s).entries.length = last - first + 1 ∧
    ∀ n, first ≤ n → n ≤ last →
      ∃ o, (BitVec.ofNat 8 n, o) ∈ (scanDevices p framing first last probe none script s).entries
end

