-- ==== Sys2Proof/Laws/Words.lean ====
section
/-! SUPPORT. Laws of the operand primitives of spec/00_scope R9: assembling and taking apart 16-bit fields. -/

namespace Sys2Proof

@[simp] theorem be16_toNat (hi lo : Byte) : (be16 hi lo).toNat = hi.toNat * 256 + lo.toNat := by
  simp only [be16, BitVec.toNat_append]
  rw [← Nat.shiftLeft_add_eq_or_of_lt lo.isLt, Nat.shiftLeft_eq]

theorem be32_toNat (b0 b1 b2 b3 : Byte) :
    (be32 b0 b1 b2 b3).toNat = b0.toNat * 2 ^ 24 + b1.toNat * 2 ^ 16 + b2.toNat * 2 ^ 8 + b3.toNat := by
  simp only [be32, BitVec.toNat_append]
  rw [← Nat.shiftLeft_add_eq_or_of_lt b1.isLt, ← Nat.shiftLeft_add_eq_or_of_lt b2.isLt,
    ← Nat.shiftLeft_add_eq_or_of_lt b3.isLt]
  simp only [Nat.shiftLeft_eq]
  omega

@[simp] theorem hi8_toNat (v : Word) : (hi8 v).toNat = v.toNat / 256 := by
  have := v.isLt
  simp only [hi8, BitVec.extractLsb'_toNat, Nat.shiftRight_eq_div_pow]
  omega

@[simp] theorem lo8_toNat (v : Word) : (lo8 v).toNat = v.toNat % 256 := by
  simp [lo8, BitVec.extractLsb'_toNat]

@[simp] theorem be16_hi8_lo8 (v : Word) : be16 (hi8 v) (lo8 v) = v := by
  apply BitVec.eq_of_toNat_eq
  rw [be16_toNat, hi8_toNat, lo8_toNat]
  omega

@[simp] theorem hi8_be16 (hi lo : Byte) : hi8 (be16 hi lo) = hi := by
  have := lo.isLt
  apply BitVec.eq_of_toNat_eq
  rw [hi8_toNat, be16_toNat]
  omega

@[simp] theorem lo8_be16 (hi lo : Byte) : lo8 (be16 hi lo) = lo := by
  have := lo.isLt
  apply BitVec.eq_of_toNat_eq
  rw [lo8_toNat, be16_toNat]
  omega

/-- A 16-bit field determines its two bytes. -/
theorem be16_injective {a b c d : Byte} (h : be16 a b = be16 c d) : a = c ∧ b = d :=
  ⟨by rw [← hi8_be16 a b, h, hi8_be16], by rw [← lo8_be16 a b, h, lo8_be16]⟩

/-- A byte read behind the end of the first part of a sequence. -/
theorem byteAt_append_right (a b : Bytes) (i : Nat) : byteAt (a ++ b) (a.length + i) = byteAt b i := by
  simp [byteAt, List.getD_eq_getElem?_getD, List.getElem?_append_right]

/-- The legal values of `rtype`. -/
theorem rtypeLegal_iff (rtype : Byte) : rtypeLegal rtype = true ↔ rtype = 0 ∨ rtype = 1 := by
  simp [rtypeLegal]

end Sys2Proof
end

