-- ==== Sys2Proof/Laws/Codec.lean ====
section
/-! SUPPORT. Each reader of the command channel undoes its field's encoder, and reads nothing but that encoding
(spec/30_encoding R78). -/

namespace Sys2Proof

/-- The opcodes are distinct: each byte of R73 selects its own command. -/
@[simp] theorem opcodeOf_opcodeByte (o : Opcode) : opcodeOf (opcodeByte o) = some o := by
  cases o <;> decide

theorem opcodeByte_of_opcodeOf {b : Byte} {o : Opcode} (h : opcodeOf b = some o) : b = opcodeByte o := by
  have := List.find?_some h
  simpa using (beq_iff_eq.mp this).symm

@[simp] theorem wordBytes_length (v : Word) : (wordBytes v).length = 2 := rfl

@[simp] theorem readWord_wordBytes (v : Word) (rest : Bytes) : readWord (wordBytes v ++ rest) = some (v, rest) := by
  simp [readWord, wordBytes]

theorem readWord_eq_some {b rest : Bytes} {v : Word} (h : readWord b = some (v, rest)) : b = wordBytes v ++ rest := by
  match b, h with
  | hi :: lo :: r, h =>
    simp only [readWord, Option.some.injEq, Prod.mk.injEq] at h
    obtain ⟨rfl, rfl⟩ := h
    simp [wordBytes]

theorem readBytes_bytesField {b : Bytes} (h : b.length ≤ 65535) (rest : Bytes) :
    readBytes (bytesField b ++ rest) = some (b, rest) := by
  have hn : (BitVec.ofNat 16 b.length).toNat = b.length := by
    rw [BitVec.toNat_ofNat]; omega
  simp [readBytes, bytesField, List.append_assoc, hn]

theorem readBytes_eq_some {b rest : Bytes} {d : Bytes} (h : readBytes b = some (d, rest)) :
    b = bytesField d ++ rest ∧ d.length ≤ 65535 := by
  unfold readBytes at h
  split at h
  · cases h
  · rename_i n r hw
    split at h
    · cases h
    · rename_i hlen
      simp only [Option.some.injEq, Prod.mk.injEq] at h
      obtain ⟨rfl, rfl⟩ := h
      have hl : (r.take n.toNat).length = n.toNat := by
        rw [List.length_take]; omega
      have hlt := n.isLt
      refine ⟨?_, by omega⟩
      rw [readWord_eq_some hw, bytesField, hl, BitVec.ofNat_toNat, BitVec.setWidth_eq, List.append_assoc,
        List.take_append_drop]

theorem readEntries_entryFields (es : List Entry) (rest : Bytes) :
    readEntries es.length (es.flatMap entryField ++ rest) = some (es, rest) := by
  induction es with
  | nil => rfl
  | cons e es ih =>
    simp [readEntries, entryField, wordBytes, ih]

theorem readEntries_eq_some {n : Nat} {b rest : Bytes} {es : List Entry} (h : readEntries n b = some (es, rest)) :
    b = es.flatMap entryField ++ rest ∧ es.length = n := by
  induction n generalizing b es with
  | zero =>
    simp only [readEntries, Option.some.injEq, Prod.mk.injEq] at h
    obtain ⟨rfl, rfl⟩ := h
    simp
  | succ n ih =>
    match b, h with
    | a :: b :: c :: d :: e :: f :: r, h =>
      simp only [readEntries] at h
      split at h
      · cases h
      · rename_i es' after hr
        simp only [Option.some.injEq, Prod.mk.injEq] at h
        obtain ⟨rfl, rfl⟩ := h
        obtain ⟨h1, h2⟩ := ih hr
        refine ⟨?_, by simp [h2]⟩
        simp [entryField, wordBytes, h1]

/-- A command's opcode, then what its reader makes of the operands. -/
theorem decode_opcode (o : Opcode) (b : Bytes) :
    decode (opcodeByte o :: b) =
      match readOperands o b with
      | none => .waiting
      | some (i, rest) => .command i rest := by
  cases o <;> rfl

/-- What a decoded command is made of. -/
theorem decode_eq_command {b rest : Bytes} {i : Instr} (h : decode b = .command i rest) :
    ∃ o ops, b = opcodeByte o :: ops ∧ readOperands o ops = some (i, rest) := by
  match b with
  | [] => cases h
  | op :: ops =>
    simp only [decode] at h
    split at h
    · cases h
    · rename_i o ho
      split at h
      · cases h
      · rename_i i' r hr
        cases h
        exact ⟨o, ops, by rw [opcodeByte_of_opcodeOf ho], hr⟩

end Sys2Proof
end

