-- ==== Sys2Proof/Laws/Crc.lean ====
section
/-! SUPPORT. Laws of the CRC register of spec/40_crc R100 and of the CRC check of R101 and R103. -/

namespace Sys2Proof

/-- A shift of the register with a zero low bit is a plain shift. -/
theorem crcBit_of_even {c : Word} (h : c.getLsbD 0 = false) : crcBit c = c >>> 1 := by
  rw [crcBit, h]
  rfl

/-- The shift undone: the top bit of the result tells which branch was taken. -/
theorem crcBit_injective : Function.Injective crcBit := by
  intro a b h
  have top : ∀ c : Word, (crcBit c).getLsbD 15 = c.getLsbD 0 := by
    intro c
    cases hc : c.getLsbD 0
    · rw [crcBit_of_even hc]; simp
    · simp [crcBit, hc]
  have h0 : a.getLsbD 0 = b.getLsbD 0 := by rw [← top a, ← top b, h]
  have hs : a >>> 1 = b >>> 1 := by
    cases hb : b.getLsbD 0
    · rw [hb] at h0
      rwa [crcBit_of_even hb, crcBit_of_even h0] at h
    · rw [hb] at h0
      simpa [crcBit, hb, h0] using h
  apply BitVec.eq_of_getLsbD_eq
  intro i hi
  cases i with
  | zero => exact h0
  | succ n =>
    have := congrArg (fun v => v.getLsbD n) hs
    simpa [BitVec.getLsbD_ushiftRight, Nat.add_comm] using this

/-- The byte that goes through the register, XORed in, is determined by the result. -/
theorem crcByte_eq_iff (c d : Word) (a b : Byte) :
    crcByte c a = crcByte d b ↔ c ^^^ a.setWidth 16 = d ^^^ b.setWidth 16 := by
  unfold crcByte
  rw [crcBit_injective.eq_iff, crcBit_injective.eq_iff, crcBit_injective.eq_iff, crcBit_injective.eq_iff,
    crcBit_injective.eq_iff, crcBit_injective.eq_iff, crcBit_injective.eq_iff, crcBit_injective.eq_iff]

theorem crcByte_left_injective (b : Byte) : Function.Injective (fun c => crcByte c b) := by
  intro c d h
  exact (BitVec.xor_left_inj _).mp ((crcByte_eq_iff c d b b).mp h)

theorem crcByte_right_injective (c : Word) : Function.Injective (crcByte c) := by
  intro a b h
  have h' := (BitVec.xor_right_inj _).mp ((crcByte_eq_iff c c a b).mp h)
  apply BitVec.eq_of_toNat_eq
  have := congrArg BitVec.toNat h'
  simp only [BitVec.toNat_setWidth] at this
  omega

/-- The CRC of a sequence goes on from the CRC of its first part. -/
theorem crc16_append (a b : Bytes) : crc16 (a ++ b) = b.foldl crcByte (crc16 a) := by
  simp [crc16, List.foldl_append]

/-- The same bytes from different register contents leave different contents. -/
theorem foldl_crcByte_injective (d : Bytes) : Function.Injective (fun c => d.foldl crcByte c) := by
  induction d with
  | nil => exact fun _ _ h => h
  | cons b d ih => exact fun _ _ h => crcByte_left_injective b (ih h)

/-- Changing one byte of the data changes the CRC. -/
theorem crc16_set_ne {d : Bytes} {k : Nat} {b : Byte} (hk : k < d.length) (hb : b ≠ byteAt d k) :
    crc16 (d.set k b) ≠ crc16 d := by
  intro h
  have hd : d = d.take k ++ d[k] :: d.drop (k + 1) := by
    rw [List.getElem_cons_drop, List.take_append_drop]
  have hs : d.set k b = d.take k ++ b :: d.drop (k + 1) := by
    rw [List.set_eq_take_append_cons_drop]; simp [hk]
  rw [hs, crc16_append] at h
  conv at h => rhs; rw [hd, crc16_append]
  simp only [List.foldl_cons] at h
  have h1 := crcByte_right_injective _ (foldl_crcByte_injective _ h)
  apply hb
  rw [h1]
  simp [byteAt, List.getD_eq_getElem?_getD, hk]

/-- Taking in the low half of the register shifts the high half down. -/
theorem crcByte_lo8 (c : Word) : crcByte c (lo8 c) = c >>> 8 := by
  have hx : ∀ j, j < 8 → (c ^^^ (lo8 c).setWidth 16).getLsbD j = false := by
    intro j hj
    have h16 : j < 16 := by omega
    simp [lo8, hj, h16]
  have step : ∀ (x : Word) (n : Nat), x.getLsbD n = false → crcBit (x >>> n) = x >>> (n + 1) := by
    intro x n hn
    rw [crcBit_of_even (by simpa using hn), ← BitVec.shiftRight_add]
  unfold crcByte
  generalize hgen : c ^^^ (lo8 c).setWidth 16 = x at hx
  have e0 : crcBit x = x >>> 1 := crcBit_of_even (hx 0 (by omega))
  rw [e0, step x 1 (hx 1 (by omega)), step x 2 (hx 2 (by omega)), step x 3 (hx 3 (by omega)),
    step x 4 (hx 4 (by omega)), step x 5 (hx 5 (by omega)), step x 6 (hx 6 (by omega)),
    step x 7 (hx 7 (by omega)), ← hgen]
  apply BitVec.eq_of_getLsbD_eq
  intro i hi
  simp only [BitVec.getLsbD_ushiftRight, BitVec.getLsbD_xor, lo8, BitVec.getLsbD_setWidth,
    BitVec.getLsbD_extractLsb']
  have : ¬ (8 + i < 8) := by omega
  simp

/-- Taking in the high half, once it has been shifted down, clears the register. -/
theorem crcByte_hi8 (c : Word) : crcByte (c >>> 8) (hi8 c) = 0 := by
  have hz : c >>> 8 ^^^ (hi8 c).setWidth 16 = 0 := by
    apply BitVec.eq_of_toNat_eq
    have := c.isLt
    have h : ((hi8 c).setWidth 16).toNat = (c >>> 8).toNat := by
      simp only [BitVec.toNat_setWidth, hi8_toNat, BitVec.toNat_ushiftRight, Nat.shiftRight_eq_div_pow]
      omega
    rw [BitVec.toNat_xor, h]
    simp
  unfold crcByte
  rw [hz]
  decide

theorem appendCrc_length (d : Bytes) : (appendCrc d).length = d.length + 2 := by simp [appendCrc]

theorem trailingCrc_append (d : Bytes) (lo hi : Byte) : trailingCrc (d ++ [lo, hi]) = be16 hi lo := by
  simp [trailingCrc, byteAt, List.getD_eq_getElem?_getD]

/-- Every sequence of at least two bytes, its last two apart. -/
theorem eq_append_two {b : Bytes} (h : 2 ≤ b.length) :
    ∃ lo hi, b = b.take (b.length - 2) ++ [lo, hi] := by
  have hd : (b.drop (b.length - 2)).length = 2 := by simp; omega
  match hm : b.drop (b.length - 2), hd with
  | [lo, hi], _ => exact ⟨lo, hi, by rw [← hm, List.take_append_drop]⟩

/-- A sequence passes the check exactly when it ends with its own CRC (R101, R103). -/
theorem crcHolds_iff {b : Bytes} (h : 2 ≤ b.length) : crcHolds b = true ↔ ∃ d, b = appendCrc d := by
  obtain ⟨lo, hi, hb⟩ := eq_append_two h
  generalize hd : b.take (b.length - 2) = d at hb
  subst hb
  have hch : crcHolds (d ++ [lo, hi]) = (crc16 d == be16 hi lo) := by
    simp [crcHolds, trailingCrc_append]
  rw [hch, beq_iff_eq]
  constructor
  · intro he
    exact ⟨d, by simp [appendCrc, he]⟩
  · rintro ⟨d', h'⟩
    have hl : d.length = d'.length := by
      have := congrArg List.length h'; simp [appendCrc] at this; exact this
    have h2 := List.append_inj h' hl
    rw [h2.1]
    have h3 := h2.2
    simp only [List.cons.injEq, and_true] at h3
    rw [h3.1, h3.2, be16_hi8_lo8]

@[simp] theorem crcHolds_appendCrc (d : Bytes) : crcHolds (appendCrc d) = true :=
  (crcHolds_iff (by simp [appendCrc])).mpr ⟨d, rfl⟩

theorem appendCrc_injective : Function.Injective appendCrc := by
  intro a b h
  have hl : a.length = b.length := by
    have := congrArg List.length h; simpa [appendCrc] using this
  exact (List.append_inj h hl).1

/-- A frame that passes the check fails it after a change of any one byte (R105). -/
theorem crcHolds_set_eq_false {b : Bytes} {k : Nat} {v : Byte} (h : 2 ≤ b.length) (hc : crcHolds b = true)
    (hk : k < b.length) (hv : v ≠ byteAt b k) : crcHolds (b.set k v) = false := by
  obtain ⟨d, rfl⟩ := (crcHolds_iff h).mp hc
  rw [appendCrc_length] at hk
  by_contra hn
  rw [Bool.not_eq_false] at hn
  obtain ⟨d', h'⟩ := (crcHolds_iff (by simpa using h)).mp hn
  have hl : d.length = d'.length := by
    have := congrArg List.length h'; simpa [appendCrc] using this
  by_cases hkd : k < d.length
  · have hs : (appendCrc d).set k v = d.set k v ++ [lo8 (crc16 d), hi8 (crc16 d)] := by
      simp [appendCrc, hkd]
    rw [hs] at h'
    have h2 := List.append_inj h' (by simpa using hl)
    have hcrc : crc16 (d.set k v) = crc16 d := by
      have h3 := h2.2
      simp only [List.cons.injEq, and_true] at h3
      rw [h2.1, ← be16_hi8_lo8 (crc16 d'), ← h3.1, ← h3.2, be16_hi8_lo8]
    refine crc16_set_ne hkd ?_ hcrc
    simpa [byteAt, appendCrc, List.getD_eq_getElem?_getD, List.getElem?_append_left hkd] using hv
  · have hs : (appendCrc d).set k v = d ++ [lo8 (crc16 d), hi8 (crc16 d)].set (k - d.length) v := by
      simp [appendCrc, List.set_append, hkd]
    rw [hs] at h'
    have h2 := List.append_inj h' hl
    have h3 := h2.2
    rw [← h2.1] at h3
    have : v = byteAt (appendCrc d) k := by
      have hi : k - d.length < 2 := by omega
      have h4 := congrArg (fun l => l[k - d.length]?) h3
      simp only [List.getElem?_set_self (show k - d.length < [lo8 (crc16 d), hi8 (crc16 d)].length from hi)] at h4
      simp only [byteAt, appendCrc, List.getD_eq_getElem?_getD, List.getElem?_append_right (Nat.le_of_not_lt hkd)]
      rw [← h4]; rfl
    exact hv this

end Sys2Proof
end

