-- ==== Sys2Proof/Laws/State.lean ====
section
/-! SUPPORT. One lemma per field and update of the state, so that no later proof unfolds a record update. -/

namespace Sys2Proof.Machine

variable (s : State) (r : Response) (v : Word) (b : Bytes)

@[simp] theorem answer_tid : (answer r s).tid = s.tid := rfl
@[simp] theorem answer_input : (answer r s).input = s.input := rfl
@[simp] theorem answer_response : (answer r s).response = some r := rfl

@[simp] theorem setTid_tid : (setTid v s).tid = v := rfl
@[simp] theorem setTid_input : (setTid v s).input = s.input := rfl
@[simp] theorem setTid_response : (setTid v s).response = s.response := rfl

@[simp] theorem advanceTid_tid : (advanceTid s).tid = s.tid + 1 := rfl
@[simp] theorem advanceTid_input : (advanceTid s).input = s.input := rfl
@[simp] theorem advanceTid_response : (advanceTid s).response = s.response := rfl

@[simp] theorem leaveInput_tid : (leaveInput b s).tid = s.tid := rfl
@[simp] theorem leaveInput_input : (leaveInput b s).input = b := rfl
@[simp] theorem leaveInput_response : (leaveInput b s).response = s.response := rfl

@[simp] theorem putFirst_tid : (putFirst b s).tid = s.tid := rfl
@[simp] theorem putFirst_input : (putFirst b s).input = b ++ s.input := rfl
@[simp] theorem putFirst_response : (putFirst b s).response = s.response := rfl

@[simp] theorem reset_tid : State.reset.tid = Config.params.tidInit := rfl
@[simp] theorem reset_input : State.reset.input = [] := rfl
@[simp] theorem reset_response : State.reset.response = none := rfl

/-- Two states with the same fields are the same state. -/
theorem state_ext {s t : State} (htid : s.tid = t.tid) (hinput : s.input = t.input)
    (hresponse : s.response = t.response) : s = t := by
  cases s; cases t; simp_all

end Sys2Proof.Machine
end

