-- ==== Sys2Proof/Laws/Ops.lean ====
section
/-! SUPPORT. What the shared operations can do, said once: `finish` and `fail` always answer a next state that differs in
the response alone, and the checks and classifications of Machine/Flags.lean. -/

namespace Sys2Proof.Machine

open Sys2Proof.Safety

theorem finish_eq (r : Result) (s : State) : finish r s = .next (returning .ok r s) := rfl

theorem fail_eq (status : Status) (s : State) : fail status s = .next (returning status .none s) := rfl

@[simp] theorem returning_tid (status : Status) (r : Result) (s : State) : (returning status r s).tid = s.tid := rfl

@[simp] theorem returning_input (status : Status) (r : Result) (s : State) :
    (returning status r s).input = s.input := rfl

@[simp] theorem returning_response (status : Status) (r : Result) (s : State) :
    (returning status r s).response = some ⟨status, r⟩ := rfl

@[simp] theorem next_inj (s t : State) : (Host.Outcome.next s : StepOutcome) = .next t ↔ s = t :=
  ⟨fun h => by cases h; rfl, fun h => by rw [h]⟩

/-- What `finish` can answer. -/
theorem finish_next {r : Result} {s t : State} (h : finish r s = .next t) : t = returning .ok r s := by
  cases h; rfl

/-- What `fail` can answer. -/
theorem fail_next {status : Status} {s t : State} (h : fail status s = .next t) : t = returning status .none s := by
  cases h; rfl

/-- The checks of 41_marshal R111 pass exactly for a legal request. -/
theorem validate_eq_none_iff (p : Params) (unit rtype : Byte) (addr count : Word) :
    validate p unit rtype addr count = none ↔ LegalRequest p unit rtype count := by
  unfold validate LegalRequest
  rw [← rtypeLegal_iff]
  cases h : rtypeLegal rtype
  · simp
  · by_cases hu : unit.toNat < 1 ∨ unit.toNat > 247
    · simp only [Bool.true_eq_false, if_false, if_pos hu, reduceCtorEq, true_and, false_iff]
      omega
    · by_cases hc : count.toNat < 1 ∨ count.toNat > p.maxCount
      · simp only [Bool.true_eq_false, if_false, if_neg hu, if_pos hc, reduceCtorEq, true_and, false_iff]
        omega
      · simp only [Bool.true_eq_false, if_false, if_neg hu, if_neg hc, true_and, true_iff]
        omega

/-- The statuses of the checks, none of them OK or ILLEGAL_COMMAND. -/
theorem validate_eq_some {p : Params} {unit rtype : Byte} {addr count : Word} {status : Status}
    (h : validate p unit rtype addr count = some status) :
    status = .illegalOperand ∨ status = .illegalUnit ∨ status = .illegalCount := by
  unfold validate at h
  split at h
  · exact .inl (Option.some.inj h).symm
  · split at h
    · exact .inr (.inl (Option.some.inj h).symm)
    · split at h
      · exact .inr (.inr (Option.some.inj h).symm)
      · cases h

/-- The check of an outstanding list (42_parse R132). -/
theorem entriesLegal_iff (outstanding : List Entry) : entriesLegal outstanding = true ↔ RtypesLegal outstanding := by
  simp only [entriesLegal, List.all_eq_true, rtypeLegal_iff, RtypesLegal]

/-- The class of an exception code (42_parse R133). -/
theorem classify_eq (p : Params) (m : Matched) (code : Byte) :
    classify p m code = if code ∈ p.gatewayCodes then .gatewayError m code else .deviceError m code := by
  simp only [classify, List.contains_iff_mem]

/-- The function code of a legal `rtype`. -/
theorem functionCode_of_requestsFc {rtype fc : Byte} (h : RequestsFc rtype fc) : functionCode rtype = fc := by
  rcases h with ⟨rfl, rfl⟩ | ⟨rfl, rfl⟩ <;> decide

theorem requestsFc_functionCode {rtype : Byte} (h : rtype = 0 ∨ rtype = 1) : RequestsFc rtype (functionCode rtype) := by
  rcases h with rfl | rfl
  · exact .inl ⟨rfl, by decide⟩
  · exact .inr ⟨rfl, by decide⟩

/-- A read function code is not its exception form. -/
theorem exceptionCode_ne (rtype : Byte) : exceptionCode (functionCode rtype) ≠ functionCode rtype := by
  unfold functionCode
  split <;> decide

end Sys2Proof.Machine
end

