-- ==== Sys2Proof/Laws/Marshal.lean ====
section
/-! SUPPORT. What the two encode commands can do (spec/41_marshal R113, R114, R116). -/

namespace Sys2Proof.Machine

open Sys2Proof.Safety

/-- The TCP frame of a read request, byte by byte; the length field is 6 (30_encoding R69). -/
theorem tcpFrame_request (tid : Word) (unit fc : Byte) (addr count : Word) :
    tcpFrame tid unit (requestPdu fc addr count) =
      [hi8 tid, lo8 tid, 0, 0, 0, 6, unit, fc, hi8 addr, lo8 addr, hi8 count, lo8 count] := by
  simp only [tcpFrame, requestPdu, wordBytes, List.length_cons, List.length_nil,
    List.cons_append, List.nil_append]
  congr 2

/-- The RTU frame of a read request, byte by byte. -/
theorem rtuFrame_request (unit fc : Byte) (addr count : Word) :
    rtuFrame unit (requestPdu fc addr count) =
      appendCrc [unit, fc, hi8 addr, lo8 addr, hi8 count, lo8 count] := rfl

/-- ENCRTU refuses with a status and no effect, or returns its frame. -/
theorem encodeRtuWith_cases (p : Params) (unit rtype : Byte) (addr count : Word) (s : State) :
    (¬ LegalRequest p unit rtype count ∧ ∃ status, validate p unit rtype addr count = some status ∧
      encodeRtuWith p unit rtype addr count s = .next (returning status .none s)) ∨
    (LegalRequest p unit rtype count ∧ encodeRtuWith p unit rtype addr count s =
      .next (returning .ok (.frame (rtuFrame unit (requestPdu (functionCode rtype) addr count))) s)) := by
  cases h : validate p unit rtype addr count with
  | none =>
    exact .inr ⟨(validate_eq_none_iff p unit rtype addr count).mp h, by simp [encodeRtuWith, h, finish_eq]⟩
  | some status =>
    refine .inl ⟨fun hl => ?_, status, rfl, by simp [encodeRtuWith, h, fail_eq]⟩
    rw [(validate_eq_none_iff p unit rtype addr count).mpr hl] at h
    cases h

/-- ENCTCP refuses with a status and no effect, or returns its frame and advances TID. -/
theorem encodeTcpWith_cases (p : Params) (unit rtype : Byte) (addr count : Word) (s : State) :
    (¬ LegalRequest p unit rtype count ∧ ∃ status, validate p unit rtype addr count = some status ∧
      encodeTcpWith p unit rtype addr count s = .next (returning status .none s)) ∨
    (LegalRequest p unit rtype count ∧ encodeTcpWith p unit rtype addr count s =
      .next (returning .ok (.frameTid (tcpFrame s.tid unit (requestPdu (functionCode rtype) addr count)) s.tid)
        (advanceTid s))) := by
  cases h : validate p unit rtype addr count with
  | none =>
    exact .inr ⟨(validate_eq_none_iff p unit rtype addr count).mp h, by simp [encodeTcpWith, h, finish_eq]⟩
  | some status =>
    refine .inl ⟨fun hl => ?_, status, rfl, by simp [encodeTcpWith, h, fail_eq]⟩
    rw [(validate_eq_none_iff p unit rtype addr count).mpr hl] at h
    cases h

/-- ENCRTU of a legal request. -/
theorem encodeRtuWith_legal {p : Params} {unit rtype : Byte} {count : Word} (h : LegalRequest p unit rtype count)
    (addr : Word) (s : State) : encodeRtuWith p unit rtype addr count s =
      .next (returning .ok (.frame (rtuFrame unit (requestPdu (functionCode rtype) addr count))) s) :=
  (encodeRtuWith_cases p unit rtype addr count s).resolve_left (fun hn => hn.1 h) |>.2

/-- ENCTCP of a legal request. -/
theorem encodeTcpWith_legal {p : Params} {unit rtype : Byte} {count : Word} (h : LegalRequest p unit rtype count)
    (addr : Word) (s : State) : encodeTcpWith p unit rtype addr count s =
      .next (returning .ok (.frameTid (tcpFrame s.tid unit (requestPdu (functionCode rtype) addr count)) s.tid)
        (advanceTid s)) :=
  (encodeTcpWith_cases p unit rtype addr count s).resolve_left (fun hn => hn.1 h) |>.2

end Sys2Proof.Machine
end

