-- ==== Sys2Proof/Laws/Parse.lean ====
section
/-! SUPPORT. Matching an outstanding list (spec/42_parse R132) and what the shared PDU parser can answer (R134, R135). -/

namespace Sys2Proof.Machine

open Sys2Proof.Safety

theorem mem_selectEntries {key : Entry → Bool} {outstanding : List Entry} {e : Entry} {k : Nat} :
    (e, k) ∈ selectEntries key outstanding ↔ outstanding[k]? = some e ∧ key e = true := by
  simp [selectEntries, List.mem_zipIdx_iff_getElem?]

/-- The selected entries stand in the order of their positions. -/
theorem selectEntries_pairwise (key : Entry → Bool) (outstanding : List Entry) :
    (selectEntries key outstanding).Pairwise (fun a b => a.2 < b.2) := by
  have h : outstanding.zipIdx.Pairwise (fun a b => a.2 < b.2) := by
    rw [← List.pairwise_map (f := Prod.snd) (R := (· < ·))]
    rw [List.zipIdx_map_snd]
    exact List.pairwise_lt_range'
  exact h.sublist List.filter_sublist

theorem selectEntries_eq_nil {key : Entry → Bool} {outstanding : List Entry} :
    selectEntries key outstanding = [] ↔ ∀ e ∈ outstanding, key e = false := by
  rw [List.eq_nil_iff_forall_not_mem]
  constructor
  · intro h e he
    obtain ⟨k, hk⟩ := List.mem_iff_getElem?.mp he
    cases hb : key e
    · rfl
    · exact absurd (mem_selectEntries.mpr ⟨hk, hb⟩) (h (e, k))
  · rintro h ⟨e, k⟩ hm
    obtain ⟨h1, h2⟩ := mem_selectEntries.mp hm
    rw [h e (List.mem_of_getElem? h1)] at h2
    cases h2

/-- One entry is selected exactly when it is the only match. -/
theorem selectEntries_eq_singleton {key : Entry → Bool} {outstanding : List Entry} {e : Entry} {k : Nat} :
    selectEntries key outstanding = [(e, k)] ↔ OnlyMatch (fun e => key e = true) outstanding k e := by
  constructor
  · intro h
    have hm := mem_selectEntries.mp (h ▸ List.mem_singleton.mpr rfl)
    refine ⟨hm.1, hm.2, fun j e' hj hk => ?_⟩
    have := mem_selectEntries.mpr ⟨hj, hk⟩
    rw [h, List.mem_singleton] at this
    exact congrArg Prod.snd this
  · rintro ⟨h1, h2, h3⟩
    have hm := mem_selectEntries.mpr ⟨h1, h2⟩
    have hall : ∀ x ∈ selectEntries key outstanding, x = (e, k) := by
      rintro ⟨e', j⟩ hx
      obtain ⟨hj, hk⟩ := mem_selectEntries.mp hx
      have hjk := h3 j e' hj hk
      subst hjk
      rw [h1] at hj
      rw [Option.some.inj hj]
    have hp := selectEntries_pairwise key outstanding
    match hl : selectEntries key outstanding with
    | [] => rw [hl] at hm; cases hm
    | [x] => rw [hall x (hl ▸ List.mem_singleton.mpr rfl)]
    | x :: y :: l =>
      rw [hl] at hp hall
      have hx := hall x (by simp)
      have hy := hall y (by simp)
      have := List.rel_of_pairwise_cons hp (show y ∈ y :: l by simp)
      rw [hx, hy] at this
      exact absurd this (lt_irrefl _)

/-- Two or more entries are selected exactly when two of them match. -/
theorem two_le_selectEntries {key : Entry → Bool} {outstanding : List Entry}
    (h : TwoMatches (fun e => key e = true) outstanding) :
    ∃ x y l, selectEntries key outstanding = x :: y :: l := by
  obtain ⟨j, k, e, e', hjk, hj, hk, h1, h2⟩ := h
  have m1 := mem_selectEntries.mpr ⟨hj, h1⟩
  have m2 := mem_selectEntries.mpr ⟨hk, h2⟩
  match hl : selectEntries key outstanding with
  | [] => rw [hl] at m1; cases m1
  | [x] =>
    rw [hl, List.mem_singleton] at m1 m2
    exact absurd (congrArg Prod.snd (m1.trans m2.symm)) hjk
  | x :: y :: l => exact ⟨x, y, l, rfl⟩

/-- A matched entry is an entry of the list. -/
theorem onlyMatch_mem {key : Entry → Prop} {outstanding : List Entry} {k : Nat} {e : Entry}
    (h : OnlyMatch key outstanding k e) : e ∈ outstanding := List.mem_of_getElem? h.1

/-- What the PDU parser can answer, with the conditions for each. -/
theorem parsePdu_cases (p : Params) (m : Matched) (e : Entry) (b : Bytes) (i n : Nat) :
    let f := functionCode e.rtype
    let arg := byteAt b (i + 1)
    (m.fc = exceptionCode f ∧ b.length ≠ n ∧ parsePdu p m e b i n = .invalidFrame .length) ∨
    (m.fc = exceptionCode f ∧ b.length = n ∧ parsePdu p m e b i n = classify p m arg) ∨
    (m.fc = f ∧ arg.toNat ≠ 2 * e.count.toNat ∧ parsePdu p m e b i n = .invalidFrame .byteCount) ∨
    (m.fc = f ∧ arg.toNat = 2 * e.count.toNat ∧ b.length ≠ n + arg.toNat ∧
      parsePdu p m e b i n = .invalidFrame .length) ∨
    (m.fc = f ∧ arg.toNat = 2 * e.count.toNat ∧ b.length = n + arg.toNat ∧
      parsePdu p m e b i n = .success m (slice b (i + 2) arg.toNat)) ∨
    (m.fc ≠ f ∧ m.fc ≠ exceptionCode f ∧ parsePdu p m e b i n = .invalidFrame .fcMismatch) := by
  intro f arg
  by_cases h1 : m.fc = exceptionCode f
  · by_cases h2 : b.length = n
    · exact .inr (.inl ⟨h1, h2, by simp only [parsePdu]; rw [if_pos h1, if_neg (not_not.mpr h2)]⟩)
    · exact .inl ⟨h1, h2, by simp only [parsePdu]; rw [if_pos h1, if_pos h2]⟩
  · by_cases h2 : m.fc = f
    · by_cases h3 : arg.toNat = 2 * e.count.toNat
      · by_cases h4 : b.length = n + arg.toNat
        · exact .inr (.inr (.inr (.inr (.inl ⟨h2, h3, h4, by
            simp only [parsePdu]; rw [if_neg h1, if_pos h2, if_neg (not_not.mpr h3), if_neg (not_not.mpr h4)]⟩))))
        · exact .inr (.inr (.inr (.inl ⟨h2, h3, h4, by
            simp only [parsePdu]; rw [if_neg h1, if_pos h2, if_neg (not_not.mpr h3), if_pos h4]⟩)))
      · exact .inr (.inr (.inl ⟨h2, h3, by
          simp only [parsePdu]; rw [if_neg h1, if_pos h2, if_pos h3]⟩))
    · exact .inr (.inr (.inr (.inr (.inr ⟨h2, h1, by
        simp only [parsePdu]; rw [if_neg h1, if_neg h2]⟩))))

section rtu

variable {p : Params} {b : Bytes} {outstanding : List Entry}

theorem parseRtu_short (h : b.length < 5) : parseRtu p b outstanding = .invalidFrame .short := by
  simp [parseRtu, h]

theorem parseRtu_crc (h : 5 ≤ b.length) (hc : crcHolds b = false) :
    parseRtu p b outstanding = .invalidFrame .crc := by
  simp [parseRtu, Nat.not_lt.mpr h, hc]

theorem parseRtu_noMatch (h : 5 ≤ b.length) (hc : crcHolds b = true)
    (hn : ∀ e ∈ outstanding, e.unit ≠ byteAt b 0) : parseRtu p b outstanding = .invalidFrame .noMatchUnit := by
  have hs : selectEntries (fun e => e.unit == byteAt b 0) outstanding = [] :=
    selectEntries_eq_nil.mpr (fun e he => by simpa using hn e he)
  simp [parseRtu, Nat.not_lt.mpr h, hc, hs]

theorem parseRtu_ambiguous (h : 5 ≤ b.length) (hc : crcHolds b = true)
    (ht : TwoMatches (fun e => e.unit = byteAt b 0) outstanding) :
    parseRtu p b outstanding = .invalidFrame .ambiguous := by
  obtain ⟨x, y, l, hs⟩ := two_le_selectEntries (key := fun e => e.unit == byteAt b 0) (by simpa using ht)
  simp [parseRtu, Nat.not_lt.mpr h, hc, hs]

theorem parseRtu_match {k : Nat} {e : Entry} (h : 5 ≤ b.length) (hc : crcHolds b = true)
    (hm : OnlyMatch (fun e => e.unit = byteAt b 0) outstanding k e) :
    parseRtu p b outstanding = parsePdu p ⟨k, byteAt b 0, byteAt b 1, none⟩ e b 1 5 := by
  have hs : selectEntries (fun e => e.unit == byteAt b 0) outstanding = [(e, k)] :=
    selectEntries_eq_singleton.mpr (by simpa using hm)
  simp [parseRtu, Nat.not_lt.mpr h, hc, hs]

/-- DECRTU's parser rejects a frame before the PDU, or parses the PDU for the one matched entry. -/
theorem parseRtu_cases (p : Params) (b : Bytes) (outstanding : List Entry) :
    (∃ reason, (reason = .short ∨ reason = .crc ∨ reason = .noMatchUnit ∨ reason = .ambiguous) ∧
      parseRtu p b outstanding = .invalidFrame reason) ∨
    (5 ≤ b.length ∧ crcHolds b = true ∧ ∃ k e, OnlyMatch (fun e => e.unit = byteAt b 0) outstanding k e ∧
      parseRtu p b outstanding = parsePdu p ⟨k, byteAt b 0, byteAt b 1, none⟩ e b 1 5) := by
  by_cases h : b.length < 5
  · exact .inl ⟨_, by simp, parseRtu_short h⟩
  have h5 := Nat.not_lt.mp h
  cases hc : crcHolds b
  · exact .inl ⟨_, by simp, parseRtu_crc h5 hc⟩
  match hs : selectEntries (fun e => e.unit == byteAt b 0) outstanding with
  | [] => exact .inl ⟨.noMatchUnit, by simp, by simp [parseRtu, h, hc, hs]⟩
  | [(e, k)] =>
    have hm := selectEntries_eq_singleton.mp hs
    simp only [beq_iff_eq] at hm
    exact .inr ⟨h5, rfl, k, e, hm, parseRtu_match h5 hc hm⟩
  | x :: y :: l => exact .inl ⟨.ambiguous, by simp, by simp [parseRtu, h, hc, hs]⟩

end rtu

section tcp

variable {p : Params} {b : Bytes} {outstanding : List Entry}

theorem parseTcp_short (h : b.length < 9) : parseTcp p b outstanding = .invalidFrame .short := by
  simp [parseTcp, h]

theorem parseTcp_noMatch (h : 9 ≤ b.length) (hn : ∀ e ∈ outstanding, e.tid ≠ be16 (byteAt b 0) (byteAt b 1)) :
    parseTcp p b outstanding = .invalidFrame .noMatchTid := by
  have hs : selectEntries (fun e => e.tid == be16 (byteAt b 0) (byteAt b 1)) outstanding = [] :=
    selectEntries_eq_nil.mpr (fun e he => by simpa using hn e he)
  simp [parseTcp, Nat.not_lt.mpr h, hs]

theorem parseTcp_ambiguous (h : 9 ≤ b.length)
    (ht : TwoMatches (fun e => e.tid = be16 (byteAt b 0) (byteAt b 1)) outstanding) :
    parseTcp p b outstanding = .invalidFrame .ambiguous := by
  obtain ⟨x, y, l, hs⟩ :=
    two_le_selectEntries (key := fun e => e.tid == be16 (byteAt b 0) (byteAt b 1)) (by simpa using ht)
  simp [parseTcp, Nat.not_lt.mpr h, hs]

theorem parseTcp_match {k : Nat} {e : Entry} (h : 9 ≤ b.length)
    (hm : OnlyMatch (fun e => e.tid = be16 (byteAt b 0) (byteAt b 1)) outstanding k e) :
    parseTcp p b outstanding =
      if be16 (byteAt b 2) (byteAt b 3) ≠ 0 then .invalidFrame .protocolId
      else if (be16 (byteAt b 4) (byteAt b 5)).toNat ≠ b.length - 6 then .invalidFrame .lengthField
      else parsePdu p ⟨k, byteAt b 6, byteAt b 7, some (be16 (byteAt b 0) (byteAt b 1))⟩ e b 7 9 := by
  have hs : selectEntries (fun e => e.tid == be16 (byteAt b 0) (byteAt b 1)) outstanding = [(e, k)] :=
    selectEntries_eq_singleton.mpr (by simpa using hm)
  simp only [parseTcp, if_neg (Nat.not_lt.mpr h), hs]

/-- DECTCP's parser rejects a frame before the PDU, or parses the PDU for the one matched entry. -/
theorem parseTcp_cases (p : Params) (b : Bytes) (outstanding : List Entry) :
    (∃ reason, (reason = .short ∨ reason = .noMatchTid ∨ reason = .ambiguous ∨ reason = .protocolId ∨
      reason = .lengthField) ∧ parseTcp p b outstanding = .invalidFrame reason) ∨
    (9 ≤ b.length ∧ be16 (byteAt b 2) (byteAt b 3) = 0 ∧ (be16 (byteAt b 4) (byteAt b 5)).toNat = b.length - 6 ∧
      ∃ k e, OnlyMatch (fun e => e.tid = be16 (byteAt b 0) (byteAt b 1)) outstanding k e ∧
        parseTcp p b outstanding =
          parsePdu p ⟨k, byteAt b 6, byteAt b 7, some (be16 (byteAt b 0) (byteAt b 1))⟩ e b 7 9) := by
  by_cases h : b.length < 9
  · exact .inl ⟨_, by simp, parseTcp_short h⟩
  have h9 := Nat.not_lt.mp h
  match hs : selectEntries (fun e => e.tid == be16 (byteAt b 0) (byteAt b 1)) outstanding with
  | [] => exact .inl ⟨.noMatchTid, by simp, by simp [parseTcp, h, hs]⟩
  | [(e, k)] =>
    have hm := selectEntries_eq_singleton.mp hs
    simp only [beq_iff_eq] at hm
    have hp := parseTcp_match (p := p) h9 hm
    by_cases h1 : be16 (byteAt b 2) (byteAt b 3) = 0
    · by_cases h2 : (be16 (byteAt b 4) (byteAt b 5)).toNat = b.length - 6
      · rw [if_neg (not_not.mpr h1), if_neg (not_not.mpr h2)] at hp
        exact .inr ⟨h9, h1, h2, k, e, hm, hp⟩
      · rw [if_neg (not_not.mpr h1), if_pos h2] at hp
        exact .inl ⟨_, by simp, hp⟩
    · rw [if_pos h1] at hp
      exact .inl ⟨_, by simp, hp⟩
  | x :: y :: l => exact .inl ⟨.ambiguous, by simp, by simp [parseTcp, h, hs]⟩

end tcp

/-- A decode command with legal entries returns its parser's result. -/
theorem decodeRtuWith_legal (p : Params) (b : Bytes) {outstanding : List Entry} (h : RtypesLegal outstanding)
    (s : State) : decodeRtuWith p b outstanding s = .next (returning .ok (.parse (parseRtu p b outstanding)) s) := by
  simp [decodeRtuWith, (entriesLegal_iff outstanding).mpr h, finish_eq]

theorem decodeTcpWith_legal (p : Params) (b : Bytes) {outstanding : List Entry} (h : RtypesLegal outstanding)
    (s : State) : decodeTcpWith p b outstanding s = .next (returning .ok (.parse (parseTcp p b outstanding)) s) := by
  simp [decodeTcpWith, (entriesLegal_iff outstanding).mpr h, finish_eq]

/-- A decode command with an illegal entry fails (R132). -/
theorem decodeRtuWith_illegal (p : Params) (b : Bytes) {outstanding : List Entry} (h : ¬ RtypesLegal outstanding)
    (s : State) : decodeRtuWith p b outstanding s = .next (returning .illegalOperand .none s) := by
  have hf : ¬ entriesLegal outstanding = true := fun hn => h ((entriesLegal_iff outstanding).mp hn)
  simp [decodeRtuWith, hf, fail_eq]

theorem decodeTcpWith_illegal (p : Params) (b : Bytes) {outstanding : List Entry} (h : ¬ RtypesLegal outstanding)
    (s : State) : decodeTcpWith p b outstanding s = .next (returning .illegalOperand .none s) := by
  have hf : ¬ entriesLegal outstanding = true := fun hn => h ((entriesLegal_iff outstanding).mp hn)
  simp [decodeTcpWith, hf, fail_eq]

end Sys2Proof.Machine
end

