-- ==== Sys2Proof/Laws/Values.lean ====
section
/-! SUPPORT. What each format of VDEC can give (spec/43_value_decode), and the laws of its helpers. -/

namespace Sys2Proof.Machine

open Sys2Proof.Safety

theorem decodeValues_refused {fmask : Byte} (h : fmask.getLsbD 7 = true) (raw : Bytes) (s : State) :
    decodeValues raw fmask s = .next (returning .illegalOperand .none s) := by
  rw [decodeValues, if_pos h, fail_eq]

theorem decodeValues_ok {fmask : Byte} (h : fmask.getLsbD 7 = false) (raw : Bytes) (s : State) :
    decodeValues raw fmask s =
      .next (returning .ok (.formats ((selectedFormats fmask).map (fun f => (f, decodeFormat f raw)))) s) := by
  rw [decodeValues, h]
  rfl

theorem decodeOne_eq (f : Format) (raw : Bytes) (s : State) :
    decodeOne f raw s = .next (returning .ok (.formats [(f, decodeFormat f raw)]) s) := rfl

/-- A format is selected exactly when its bit is set (R161). -/
theorem mem_selectedFormats (fmask : Byte) (f : Format) :
    f ∈ selectedFormats fmask ↔ fmask.getLsbD (formatBit f) = true := by
  have : f ∈ allFormats := by cases f <;> decide
  simp [selectedFormats, this]

/-- Selecting one format's mask selects that format alone. -/
theorem selectedFormats_formatMask (f : Format) : selectedFormats (formatMask f) = [f] := by
  cases f <;> decide

/-- `sext_16` and `sext_32` on plain numbers (00_scope R9). -/
theorem toInt_eq_twosComplement {w : Nat} (hw : 0 < w) (v : BitVec w) : v.toInt = twosComplement w v.toNat := by
  obtain ⟨n, rfl⟩ : ∃ n, w = n + 1 := ⟨w - 1, by omega⟩
  rw [BitVec.toInt_eq_toNat_cond, twosComplement]
  have : 2 ^ (n + 1) = 2 * 2 ^ n := by rw [Nat.pow_succ, Nat.mul_comm]
  simp only [Nat.add_sub_cancel]
  split <;> split <;> first | omega | (push_cast; rfl)

/-- The digits of HEX are those of the rule, in order (R171). -/
theorem hexDigit_eq (d : BitVec 4) : hexDigits[d.toNat]? = some (hexDigit d) := by
  revert d; decide

theorem hexByte_getElem? (b : Byte) :
    (hexByte b)[0]? = hexDigits[b.toNat / 16]? ∧ (hexByte b)[1]? = hexDigits[b.toNat % 16]? := by
  have hlt := b.isLt
  have h1 : (b.extractLsb' 4 4).toNat = b.toNat / 16 := by
    simp only [BitVec.extractLsb'_toNat, Nat.shiftRight_eq_div_pow]; omega
  have h0 : (b.extractLsb' 0 4).toNat = b.toNat % 16 := by
    simp [BitVec.extractLsb'_toNat]
  exact ⟨by rw [← h1, hexDigit_eq]; rfl, by rw [← h0, hexDigit_eq]; rfl⟩

theorem hexDigits_injective {m n : Nat} (hm : m < 16) (hn : n < 16) (h : hexDigits[m]? = hexDigits[n]?) : m = n := by
  have key : ∀ i j : Fin 16, hexDigits[i.val]? = hexDigits[j.val]? → i = j := by decide
  exact congrArg Fin.val (key ⟨m, hm⟩ ⟨n, hn⟩ h)

theorem hexByte_injective : Function.Injective hexByte := by
  intro a b h
  have ha := a.isLt
  have hb := b.isLt
  have h1 : a.toNat / 16 = b.toNat / 16 :=
    hexDigits_injective (by omega) (by omega) (by rw [← (hexByte_getElem? a).1, h, (hexByte_getElem? b).1])
  have h0 : a.toNat % 16 = b.toNat % 16 :=
    hexDigits_injective (by omega) (by omega) (by rw [← (hexByte_getElem? a).2, h, (hexByte_getElem? b).2])
  exact BitVec.eq_of_toNat_eq (by omega)

theorem hexText_length (raw : Bytes) : (raw.flatMap hexByte).length = 2 * raw.length := by
  induction raw with
  | nil => rfl
  | cons b r ih => simp [hexByte] at ih ⊢; omega

/-- STRING trims zeros at the end and nothing else (R172). -/
theorem trimZeros_spec (raw : Bytes) :
    (∃ n, raw = trimZeros raw ++ List.replicate n 0) ∧ (trimZeros raw).getLast? ≠ some 0 := by
  constructor
  · refine ⟨(raw.reverse.takeWhile (· == 0)).length, ?_⟩
    have h1 := List.takeWhile_append_dropWhile (p := (· == (0 : Byte))) (l := raw.reverse)
    have h2 : raw.reverse.takeWhile (· == 0) = List.replicate (raw.reverse.takeWhile (· == 0)).length 0 := by
      rw [List.eq_replicate_iff]
      exact ⟨rfl, fun b hb => by simpa using List.mem_takeWhile_imp hb⟩
    rw [h2] at h1
    have h3 := congrArg List.reverse h1
    rw [List.reverse_reverse, List.reverse_append, List.reverse_replicate] at h3
    exact h3.symm
  · rw [trimZeros, List.getLast?_reverse]
    intro h
    have := List.head?_dropWhile_not (· == (0 : Byte)) raw.reverse
    rw [h] at this
    simp at this

theorem latin1_toNat (b : Byte) : (latin1 b).toNat = b.toNat := by
  revert b; decide

end Sys2Proof.Machine
end

