-- ==== Sys2Proof/Laws/Exec.lean ====
section
/-! SUPPORT. What one instruction can do, said once: four shapes of answer, and nothing else. Later proofs over all
instructions cite `exec_cases` and do not unfold a meaning. -/

namespace Sys2Proof.Machine

open Sys2Proof.Safety

/-- An instruction that returned OK and wrote no state; an identifier is allocated by none of these. -/
def CompletesReadOnly (i : Instr) (s : State) : Prop :=
  ∃ r, exec i s = .next (returning .ok r s) ∧ (∀ f t, r ≠ .frameTid f t) ∧ ((∃ v, r = .tid v) → i = .tidrd)

/-- An instruction that an operand check refused (60_exceptions R204). -/
def FailsCleanly (i : Instr) (s : State) : Prop :=
  ∃ status, status ≠ .ok ∧ status ≠ .illegalCommand ∧ exec i s = .next (returning status .none s)

/-- A successful TCP encode (41_marshal R114, R115). -/
def AllocatesTid (i : Instr) (s : State) : Prop :=
  ∃ f, exec i s = .next (returning .ok (.frameTid f s.tid) { s with tid := s.tid + 1 }) ∧
    ∃ unit rtype addr count, coreCommand i = .enctcp unit rtype addr count

/-- TIDLD and RESET (44_system R190, R191). -/
def WritesTid (i : Instr) (s : State) : Prop :=
  (∃ v, i = .tidld v ∧ exec i s = .next ⟨v, s.input, some ⟨.ok, .none⟩⟩) ∨
    (i = .reset ∧ exec i s = .next ⟨Config.params.tidInit, s.input, some ⟨.ok, .none⟩⟩)

/-- The answers of one instruction. -/
def ExecShape (i : Instr) (s : State) : Prop :=
  CompletesReadOnly i s ∨ FailsCleanly i s ∨ AllocatesTid i s ∨ WritesTid i s

section

variable {i : Instr} {s : State}

theorem shape_of_finish {r : Result} (h : exec i s = finish r s) (hf : ∀ f t, r ≠ .frameTid f t)
    (ht : ∀ v, r ≠ .tid v) : ExecShape i s :=
  .inl ⟨r, h, hf, fun ⟨v, hv⟩ => absurd hv (ht v)⟩

theorem shape_of_encodeRtu {unit rtype : Byte} {addr count : Word}
    (h : exec i s = encodeRtuWith Config.params unit rtype addr count s) : ExecShape i s := by
  rcases hv : validate Config.params unit rtype addr count with _ | status
  · exact shape_of_finish (r := .frame _) (by rw [h, encodeRtuWith, hv]) (by simp) (by simp)
  · refine .inr (.inl ⟨status, ?_, ?_, by rw [h, encodeRtuWith, hv]; rfl⟩) <;>
      rcases validate_eq_some hv with rfl | rfl | rfl <;> decide

theorem shape_of_encodeTcp {unit rtype : Byte} {addr count : Word}
    (hc : coreCommand i = .enctcp unit rtype addr count)
    (h : exec i s = encodeTcpWith Config.params unit rtype addr count s) : ExecShape i s := by
  rcases hv : validate Config.params unit rtype addr count with _ | status
  · exact .inr (.inr (.inl ⟨_, by rw [h, encodeTcpWith, hv, finish_eq]; rfl, unit, rtype, addr, count, hc⟩))
  · refine .inr (.inl ⟨status, ?_, ?_, by rw [h, encodeTcpWith, hv]; rfl⟩) <;>
      rcases validate_eq_some hv with rfl | rfl | rfl <;> decide

theorem shape_of_decodeRtu {b : Bytes} {outstanding : List Entry}
    (h : exec i s = decodeRtuWith Config.params b outstanding s) : ExecShape i s := by
  by_cases ho : RtypesLegal outstanding
  · exact shape_of_finish (r := .parse _) (by rw [h, decodeRtuWith_legal _ _ ho, finish_eq]) (by simp) (by simp)
  · exact .inr (.inl ⟨.illegalOperand, by decide, by decide, by rw [h, decodeRtuWith_illegal _ _ ho]⟩)

theorem shape_of_decodeTcp {b : Bytes} {outstanding : List Entry}
    (h : exec i s = decodeTcpWith Config.params b outstanding s) : ExecShape i s := by
  by_cases ho : RtypesLegal outstanding
  · exact shape_of_finish (r := .parse _) (by rw [h, decodeTcpWith_legal _ _ ho, finish_eq]) (by simp) (by simp)
  · exact .inr (.inl ⟨.illegalOperand, by decide, by decide, by rw [h, decodeTcpWith_illegal _ _ ho]⟩)

theorem shape_of_decodeOne {f : Format} {raw : Bytes} (h : exec i s = decodeOne f raw s) : ExecShape i s :=
  shape_of_finish (r := .formats _) (h.trans (decodeOne_eq f raw s)) (by simp) (by simp)

end

/-- Every instruction answers in one of these shapes, from every state. -/
theorem exec_cases (i : Instr) (s : State) : ExecShape i s := by
  cases i with
  | crc16 data => exact shape_of_finish (r := .crc _) rfl (by simp) (by simp)
  | crcchk frame =>
    refine shape_of_finish (r := checkFrame frame) rfl ?_ ?_ <;> unfold checkFrame <;> split
    · simp
    · split <;> simp
    · simp
    · split <;> simp
  | encrtu unit rtype addr count => exact shape_of_encodeRtu rfl
  | enctcp unit rtype addr count => exact shape_of_encodeTcp rfl rfl
  | decrtu frame outstanding => exact shape_of_decodeRtu rfl
  | dectcp frame outstanding => exact shape_of_decodeTcp rfl
  | prsrtuq frame => exact shape_of_finish (r := .request _) rfl (by simp) (by simp)
  | vdec raw fmask =>
    cases h : fmask.getLsbD 7
    · exact shape_of_finish (r := .formats _) (decodeValues_ok h raw s) (by simp) (by simp)
    · exact .inr (.inl ⟨_, by decide, by decide, decodeValues_refused h raw s⟩)
  | reset => exact .inr (.inr (.inr (.inr ⟨rfl, rfl⟩)))
  | tidld v => exact .inr (.inr (.inr (.inl ⟨v, rfl, rfl⟩)))
  | tidrd => exact .inl ⟨_, rfl, by simp, fun _ => rfl⟩
  | reqReadHolding framing unit addr count =>
    cases framing
    · exact shape_of_encodeRtu rfl
    · exact shape_of_encodeTcp rfl rfl
  | reqReadInput framing unit addr count =>
    cases framing
    · exact shape_of_encodeRtu rfl
    · exact shape_of_encodeTcp rfl rfl
  | rspReadHolding envelope data outstanding =>
    cases envelope
    · exact shape_of_decodeRtu rfl
    · exact shape_of_decodeTcp rfl
  | rspReadInput envelope data outstanding =>
    cases envelope
    · exact shape_of_decodeRtu rfl
    · exact shape_of_decodeTcp rfl
  | excReadHolding envelope code outstanding =>
    cases envelope
    · exact shape_of_decodeRtu rfl
    · exact shape_of_decodeTcp rfl
  | excReadInput envelope code outstanding =>
    cases envelope
    · exact shape_of_decodeRtu rfl
    · exact shape_of_decodeTcp rfl
  | vdecInt16 raw => exact shape_of_decodeOne rfl
  | vdecInt32be raw => exact shape_of_decodeOne rfl
  | vdecInt32ws raw => exact shape_of_decodeOne rfl
  | vdecFloat16 raw => exact shape_of_decodeOne rfl
  | vdecFloat32 raw => exact shape_of_decodeOne rfl
  | vdecHex raw => exact shape_of_decodeOne rfl
  | vdecString raw => exact shape_of_decodeOne rfl

end Sys2Proof.Machine
end

