-- ==== Sys2Proof/Laws/PerInstr.lean ====
section
/-! SUPPORT. Carrier: for every instruction, the command that carries it has the same descriptor, is its own carrier, and
has a serialized form when the instruction has one (spec/30_encoding R78; log 4). -/

namespace Sys2Proof.Laws.Carrier

def Statement (i : Instr) : Prop :=
  encode (coreCommand i) = encode i ∧ coreCommand (coreCommand i) = coreCommand i ∧
    (wellFormed i = true → wellFormed (coreCommand i) = true)

/-- A command of 30_encoding R73 carries itself. -/
theorem of_command {i : Instr} (h : coreCommand i = i) : Statement i := by
  unfold Statement
  rw [h]
  exact ⟨rfl, h, id⟩

/-- A request row is carried by an encode command. -/
theorem of_request {i : Instr} {framing : Framing} {unit rtype : Byte} {addr count : Word}
    (hc : coreCommand i = requestCommand framing unit rtype addr count)
    (he : encode i = encodeRequest (requestOpcode framing) unit rtype addr count) : Statement i := by
  unfold Statement
  rw [hc, he]
  cases framing <;> exact ⟨rfl, rfl, fun _ => rfl⟩

/-- A response row is carried by a decode command, whose frame is at most nine bytes longer than the PDU. -/
theorem of_response {i : Instr} {envelope : Envelope} {pdu : Bytes} {outstanding : List Entry}
    (hc : coreCommand i = responseCommand envelope pdu outstanding)
    (he : encode i = encodeResponse (responseOpcode envelope) (envelopeFrame envelope pdu) outstanding)
    (hw : wellFormed i = true → pdu.length ≤ 257 ∧ entriesFit outstanding = true) : Statement i := by
  unfold Statement
  rw [hc, he]
  cases envelope <;>
  · refine ⟨rfl, rfl, fun h => ?_⟩
    obtain ⟨hl, hes⟩ := hw h
    simp only [responseCommand, wellFormed, hes, Bool.and_true, bytesFit, rtuFrame, appendCrc, tcpFrame, wordBytes,
      List.length_append, List.length_cons, List.length_nil, decide_eq_true_eq]
    omega

theorem pdu_length_of_dataFits {data : Bytes} {outstanding : List Entry} (fc : Byte)
    (h : (dataFits data && entriesFit outstanding) = true) :
    (responsePdu fc data).length ≤ 257 ∧ entriesFit outstanding = true := by
  simp only [dataFits, Bool.and_eq_true, decide_eq_true_eq] at h
  exact ⟨by simp [responsePdu]; omega, h.2⟩

theorem crc16 (data : Bytes) : Statement (.crc16 data) := of_command rfl
theorem crcchk (frame : Bytes) : Statement (.crcchk frame) := of_command rfl
theorem encrtu (unit rtype : Byte) (addr count : Word) : Statement (.encrtu unit rtype addr count) := of_command rfl
theorem enctcp (unit rtype : Byte) (addr count : Word) : Statement (.enctcp unit rtype addr count) := of_command rfl
theorem decrtu (frame : Bytes) (outstanding : List Entry) : Statement (.decrtu frame outstanding) := of_command rfl
theorem dectcp (frame : Bytes) (outstanding : List Entry) : Statement (.dectcp frame outstanding) := of_command rfl
theorem prsrtuq (frame : Bytes) : Statement (.prsrtuq frame) := of_command rfl
theorem vdec (raw : Bytes) (fmask : Byte) : Statement (.vdec raw fmask) := of_command rfl
theorem reset : Statement .reset := of_command rfl
theorem tidld (v : Word) : Statement (.tidld v) := of_command rfl
theorem tidrd : Statement .tidrd := of_command rfl

theorem reqReadHolding (framing : Framing) (unit : Byte) (addr count : Word) :
    Statement (.reqReadHolding framing unit addr count) := of_request rfl rfl

theorem reqReadInput (framing : Framing) (unit : Byte) (addr count : Word) :
    Statement (.reqReadInput framing unit addr count) := of_request rfl rfl

theorem rspReadHolding (envelope : Envelope) (data : Bytes) (outstanding : List Entry) :
    Statement (.rspReadHolding envelope data outstanding) :=
  of_response rfl rfl (pdu_length_of_dataFits 0x03)

theorem rspReadInput (envelope : Envelope) (data : Bytes) (outstanding : List Entry) :
    Statement (.rspReadInput envelope data outstanding) :=
  of_response rfl rfl (pdu_length_of_dataFits 0x04)

theorem excReadHolding (envelope : Envelope) (code : Byte) (outstanding : List Entry) :
    Statement (.excReadHolding envelope code outstanding) :=
  of_response rfl rfl (fun h => ⟨by simp [exceptionPdu], h⟩)

theorem excReadInput (envelope : Envelope) (code : Byte) (outstanding : List Entry) :
    Statement (.excReadInput envelope code outstanding) :=
  of_response rfl rfl (fun h => ⟨by simp [exceptionPdu], h⟩)

theorem of_format {i : Instr} {raw : Bytes} {fmask : Byte} (hc : coreCommand i = .vdec raw fmask)
    (he : encode i = encodeVdec raw fmask) (hw : wellFormed i = bytesFit raw) : Statement i := by
  unfold Statement
  rw [hc, he, hw]
  exact ⟨rfl, rfl, id⟩

theorem vdecInt16 (raw : Bytes) : Statement (.vdecInt16 raw) := of_format rfl rfl rfl
theorem vdecInt32be (raw : Bytes) : Statement (.vdecInt32be raw) := of_format rfl rfl rfl
theorem vdecInt32ws (raw : Bytes) : Statement (.vdecInt32ws raw) := of_format rfl rfl rfl
theorem vdecFloat16 (raw : Bytes) : Statement (.vdecFloat16 raw) := of_format rfl rfl rfl
theorem vdecFloat32 (raw : Bytes) : Statement (.vdecFloat32 raw) := of_format rfl rfl rfl
theorem vdecHex (raw : Bytes) : Statement (.vdecHex raw) := of_format rfl rfl rfl
theorem vdecString (raw : Bytes) : Statement (.vdecString raw) := of_format rfl rfl rfl

end Sys2Proof.Laws.Carrier
end

