-- ==== Sys2Proof/Tests/Slice0.lean ====
section
/-! SUPPORT. Tests. Expected results are from spec/95_test_vectors unless a comment says otherwise; they use the reference
parameters (00_scope R7), so the commands that depend on a parameter are run through their `With` operations. The
theorems whose names begin test_witness_ show that the hypotheses of a statement can be met together, one clause at a
time. -/

namespace Sys2Proof.Tests

open Sys2Proof.Machine Sys2Proof.Safety

/-- A block with a given TID and nothing on its channel. -/
def blockWith (tid : Word) : State := ⟨tid, [], none⟩

/-- What a command answered: the TID after it, the status and the result. -/
def answered : StepOutcome → Option (Word × Status × Result)
  | .next t => t.response.map (fun r => (t.tid, r.status, r.result))
  | _ => none

/-- The answer of a command that leaves TID at 7. -/
def ok7 (r : Result) : Option (Word × Status × Result) := some (7, .ok, r)

/-! ### Well-formedness (30_encoding R78): one ill-formed term for each check -/

theorem test_bytesFit_refuses (data : Bytes) (h : data = List.replicate 65536 0) : wellFormed (.crc16 data) = false := by
  have hl : data.length = 65536 := by rw [h, List.length_replicate]
  simp [wellFormed, bytesFit, hl]

theorem test_bytesFit_accepts (data : Bytes) (h : data = List.replicate 65535 0) : wellFormed (.crc16 data) = true := by
  have hl : data.length = 65535 := by rw [h, List.length_replicate]
  simp [wellFormed, bytesFit, hl]

theorem test_entriesFit_refuses : wellFormed (.decrtu [] (List.replicate 256 ⟨0, 1, 0, 1⟩)) = false := by decide +kernel

theorem test_entriesFit_accepts : wellFormed (.decrtu [] (List.replicate 255 ⟨0, 1, 0, 1⟩)) = true := by decide +kernel

theorem test_dataFits_refuses : wellFormed (.rspReadHolding (.rtu 1) (List.replicate 256 0) []) = false := by
  decide +kernel

/-- A reserved `rtype` and a reserved `fmask` bit are encoded and sent; the block answers them (R79). -/
theorem test_reserved_operands_are_sent : wellFormed (.encrtu 0 2 0 0) = true ∧ wellFormed (.vdec [] 0xFF) = true := by
  decide

/-! ### Decoding: descriptors written out byte by byte from 30_encoding R73 and R78 -/

/-- Opcode, two length bytes, the bytes. -/
theorem test_decode_crc16 : decode [0x01, 0x00, 0x02, 0xAB, 0xCD] = .command (.crc16 [0xAB, 0xCD]) [] := by decide

theorem test_decode_crcchk : decode [0x02, 0x00, 0x03, 0x01, 0x7E, 0x80] = .command (.crcchk [0x01, 0x7E, 0x80]) [] := by
  decide

/-- Opcode, unit, rtype, addr_hi, addr_lo, count_hi, count_lo, all six different. -/
theorem test_decode_encrtu :
    decode [0x10, 0xA1, 0xB2, 0xC3, 0xD4, 0xE5, 0xF6] = .command (.encrtu 0xA1 0xB2 0xC3D4 0xE5F6) [] := by decide

theorem test_decode_enctcp :
    decode [0x11, 0x05, 0x00, 0x01, 0x00, 0x00, 0x04] = .command (.enctcp 5 0 0x0100 4) [] := by decide

/-- Opcode, nent, frame length and frame, then tid_hi, tid_lo, unit, rtype, count_hi, count_lo; a byte is left over. -/
theorem test_decode_decrtu :
    decode [0x20, 0x02, 0x00, 0x01, 0xEE, 0x12, 0x34, 0x56, 0x01, 0x78, 0x9A, 0x00, 0x01, 0x02, 0x00, 0x03, 0x04, 0x42] =
      .command (.decrtu [0xEE] [⟨0x1234, 0x56, 0x01, 0x789A⟩, ⟨0x0001, 0x02, 0x00, 0x0304⟩]) [0x42] := by decide

theorem test_decode_dectcp :
    decode [0x21, 0x01, 0x00, 0x0D, 0x00, 0x05, 0x00, 0x00, 0x00, 0x07, 0x01, 0x03, 0x04, 0x41, 0x20, 0x00, 0x00, 0x00, 0x05,
      0x01, 0x00, 0x00, 0x02] =
      .command (.dectcp [0x00, 0x05, 0x00, 0x00, 0x00, 0x07, 0x01, 0x03, 0x04, 0x41, 0x20, 0x00, 0x00] [⟨5, 1, 0, 2⟩]) [] := by
  decide

theorem test_decode_prsrtuq : decode [0x22, 0x00, 0x00] = .command (.prsrtuq []) [] := by decide

/-- Opcode, fmask, length, raw. -/
theorem test_decode_vdec : decode [0x30, 0x21, 0x00, 0x02, 0xAE, 0x41] = .command (.vdec [0xAE, 0x41] 0x21) [] := by decide

theorem test_decode_control :
    decode [0x40, 0x41, 0x12, 0x34, 0x42] = .command .reset [0x41, 0x12, 0x34, 0x42] ∧
    decode [0x41, 0x12, 0x34, 0x42] = .command (.tidld 0x1234) [0x42] ∧ decode [0x42] = .command .tidrd [] := by decide

theorem test_decode_reserved : decode [0x00, 0x40] = .reserved 0x00 [0x40] ∧ decode [0x43] = .reserved 0x43 [] := by decide

theorem test_decode_incomplete : decode [] = .waiting ∧ decode [0x41, 0xFF] = .waiting ∧
    decode [0x01, 0x00, 0x02, 0xAB] = .waiting := by decide

/-- The PDU and format rows are sent as the command that carries them (log 4). -/
theorem test_encode_request_row :
    encode (.reqReadHolding .rtu 0x11 0x6B 3) = [0x10, 0x11, 0x00, 0x00, 0x6B, 0x00, 0x03] ∧
    encode (.reqReadInput .tcp 2 0x10 2) = [0x11, 0x02, 0x01, 0x00, 0x10, 0x00, 0x02] := by decide

/-- Program P2's DECRTU descriptor, from the response PDU row. -/
theorem test_encode_response_row :
    encode (.rspReadHolding (.rtu 0x11) [0xAE, 0x41, 0x56, 0x52, 0x43, 0x40] [⟨0, 0x11, 0, 3⟩]) =
      [0x20, 0x01, 0x00, 0x0B, 0x11, 0x03, 0x06, 0xAE, 0x41, 0x56, 0x52, 0x43, 0x40, 0x49, 0xAD, 0x00, 0x00, 0x11, 0x00, 0x00,
        0x03] := by decide +kernel

/-- The frame of 2.3.2 with a DEVICE_ERROR, from the exception PDU row. -/
theorem test_encode_exception_row :
    encode (.excReadInput (.tcp 1 1) 2 []) = [0x21, 0x00, 0x00, 0x09, 0x00, 0x01, 0x00, 0x00, 0x00, 0x03, 0x01, 0x84, 0x02] := by
  decide +kernel

theorem test_encode_format_rows :
    encode (.vdecInt16 [1]) = [0x30, 0x01, 0x00, 0x01, 0x01] ∧ encode (.vdecInt32be [1]) = [0x30, 0x02, 0x00, 0x01, 0x01] ∧
    encode (.vdecInt32ws [1]) = [0x30, 0x04, 0x00, 0x01, 0x01] ∧ encode (.vdecFloat16 [1]) = [0x30, 0x08, 0x00, 0x01, 0x01] ∧
    encode (.vdecFloat32 [1]) = [0x30, 0x10, 0x00, 0x01, 0x01] ∧ encode (.vdecHex [1]) = [0x30, 0x20, 0x00, 0x01, 0x01] ∧
    encode (.vdecString [1]) = [0x30, 0x40, 0x00, 0x01, 0x01] := by decide

/-- The eleven opcodes of R73 as opcode-table words with zero operands, and the rows that no command's byte hides (log
6). -/
theorem test_table_words :
    decodeTableWord 8 0x01 = some (.crc16 []) ∧ decodeTableWord 8 0x02 = some (.crcchk []) ∧
    decodeTableWord 8 0x10 = some (.encrtu 0 0 0 0) ∧ decodeTableWord 8 0x11 = some (.enctcp 0 0 0 0) ∧
    decodeTableWord 8 0x20 = some (.decrtu [] []) ∧ decodeTableWord 8 0x21 = some (.dectcp [] []) ∧
    decodeTableWord 8 0x22 = some (.prsrtuq []) ∧ decodeTableWord 8 0x30 = some (.vdec [] 0) ∧
    decodeTableWord 8 0x40 = some .reset ∧ decodeTableWord 8 0x41 = some (.tidld 0) ∧ decodeTableWord 8 0x42 = some .tidrd ∧
    decodeTableWord 8 0x03 = some (.reqReadHolding .rtu 0 0 0) ∧ decodeTableWord 8 0x84 = some (.excReadInput (.rtu 0) 0 []) ∧
    decodeTableWord 8 0x08 = some (.vdecFloat16 []) ∧ decodeTableWord 8 0x05 = none := by decide

/-- The very next step after `withFetchWord` runs the instruction (log 6). -/
theorem test_withFetchWord :
    answered (step ((blockWith 7).withFetchWord 24 0x341241)) = some (0x1234, .ok, .none) ∧
    answered (step ((blockWith 7).withFetchWord 8 0x08)) = ok7 (.formats [(.float16, .insufficientData)]) := by decide

/-! ### CRC family (2.1) -/

theorem test_crc16_check_value :
    crc16 [0x31, 0x32, 0x33, 0x34, 0x35, 0x36, 0x37, 0x38, 0x39] = 0x4B37 ∧ crc16 [] = 0xFFFF := by decide +kernel

theorem test_crc16 : answered (exec (.crc16 [0x11, 0x03, 0x00, 0x6B, 0x00, 0x03]) (blockWith 7)) = ok7 (.crc 0x8776) := by
  decide +kernel

theorem test_crcchk_match :
    answered (exec (.crcchk [0x11, 0x03, 0x06, 0xAE, 0x41, 0x56, 0x52, 0x43, 0x40, 0x49, 0xAD]) (blockWith 7)) =
      ok7 (.check true .clear) ∧
    answered (exec (.crcchk [0x1D, 0x03, 0x05, 0x6B, 0x00, 0x03, 0x76, 0x87]) (blockWith 7)) = ok7 (.check true .clear) := by
  decide +kernel

theorem test_crcchk_rejects :
    answered (exec (.crcchk [0x11, 0x03, 0x00, 0x6B, 0x00, 0x03, 0x76, 0x88]) (blockWith 7)) = ok7 (.check false .crc) ∧
    answered (exec (.crcchk [0x01]) (blockWith 7)) = ok7 (.check false .short) := by decide +kernel

/-! ### Marshal family (2.2) -/

theorem test_encrtu :
    answered (encodeRtuWith .reference 0x11 0 0x6B 3 (blockWith 7)) =
      ok7 (.frame [0x11, 0x03, 0x00, 0x6B, 0x00, 0x03, 0x76, 0x87]) ∧
    answered (encodeRtuWith .reference 247 1 65535 125 (blockWith 7)) =
      ok7 (.frame [0xF7, 0x04, 0xFF, 0xFF, 0x00, 0x7D, 0x24, 0x99]) := by decide +kernel

theorem test_encrtu_checks :
    answered (encodeRtuWith .reference 248 0 0 1 (blockWith 7)) = some (7, .illegalUnit, .none) ∧
    answered (encodeRtuWith .reference 1 0 0 126 (blockWith 7)) = some (7, .illegalCount, .none) ∧
    answered (encodeRtuWith .reference 0 2 0 0 (blockWith 7)) = some (7, .illegalOperand, .none) := by decide

theorem test_enctcp :
    answered (encodeTcpWith .reference 1 1 0x10 1 (blockWith 1)) =
      some (2, .ok, .frameTid [0x00, 0x01, 0x00, 0x00, 0x00, 0x06, 0x01, 0x04, 0x00, 0x10, 0x00, 0x01] 1) := by decide

theorem test_enctcp_wraps :
    answered (encodeTcpWith .reference 5 0 0x100 4 (blockWith 0xFFFF)) =
      some (0, .ok, .frameTid [0xFF, 0xFF, 0x00, 0x00, 0x00, 0x06, 0x05, 0x03, 0x01, 0x00, 0x00, 0x04] 0xFFFF) ∧
    answered (encodeTcpWith .reference 0 0 0 1 (blockWith 7)) = some (7, .illegalUnit, .none) := by decide

/-- 30_encoding R63 and R66: unit 0 is refused whatever MAX_COUNT is. -/
theorem test_request_rows_refuse_unit_zero :
    answered (exec (.reqReadHolding .rtu 0 0 1) (blockWith 7)) = some (7, .illegalUnit, .none) ∧
    answered (exec (.reqReadInput .tcp 0 0 1) (blockWith 7)) = some (7, .illegalUnit, .none) := by decide

/-! ### Parse family (2.3) -/

/-- The outstanding list of 2.3.1. -/
def rtuList : List Entry := [⟨0, 0x11, 0, 3⟩]

/-- The outstanding list of 2.3.2. -/
def tcpList : List Entry := [⟨0, 1, 0, 2⟩, ⟨1, 1, 1, 1⟩]

theorem test_decrtu_accepts :
    parseRtu .reference [0x11, 0x03, 0x06, 0xAE, 0x41, 0x56, 0x52, 0x43, 0x40, 0x49, 0xAD] rtuList =
      .success ⟨0, 0x11, 0x03, none⟩ [0xAE, 0x41, 0x56, 0x52, 0x43, 0x40] ∧
    parseRtu .reference [0x11, 0x83, 0x02, 0xC1, 0x34] rtuList = .deviceError ⟨0, 0x11, 0x83, none⟩ 0x02 ∧
    parseRtu .reference [0x11, 0x83, 0x0B, 0x01, 0x32] rtuList = .gatewayError ⟨0, 0x11, 0x83, none⟩ 0x0B := by
  decide +kernel

theorem test_decrtu_rejects :
    parseRtu .reference [0x11, 0x83, 0x02, 0xC1] rtuList = .invalidFrame .short ∧
    parseRtu .reference [0x12, 0x03, 0x06, 0xAE, 0x41, 0x56, 0x52, 0x43, 0x40, 0x5D, 0x5D] rtuList =
      .invalidFrame .noMatchUnit ∧
    parseRtu .reference [0x11, 0x84, 0x02, 0xC3, 0x04] rtuList = .invalidFrame .fcMismatch ∧
    parseRtu .reference [0x11, 0x03, 0x04, 0xAE, 0x41, 0x56, 0x52, 0x25, 0x53] rtuList = .invalidFrame .byteCount ∧
    parseRtu .reference [0x11, 0x83, 0x02, 0x00, 0xF5, 0x90] rtuList = .invalidFrame .length ∧
    parseRtu .reference [0x01, 0x03, 0x00, 0x20, 0xF0] [⟨0, 1, 0, 128⟩] = .invalidFrame .byteCount := by decide +kernel

theorem test_dectcp_accepts :
    parseTcp .reference [0, 0, 0, 0, 0, 7, 9, 3, 4, 0x12, 0x34, 0x56, 0x78] tcpList =
      .success ⟨0, 9, 0x03, some 0⟩ [0x12, 0x34, 0x56, 0x78] ∧
    parseTcp .reference [0, 1, 0, 0, 0, 5, 1, 4, 2, 0xFF, 0xFE] tcpList = .success ⟨1, 1, 0x04, some 1⟩ [0xFF, 0xFE] ∧
    parseTcp .reference [0, 0, 0, 0, 0, 3, 1, 0x83, 0x0B] tcpList = .gatewayError ⟨0, 1, 0x83, some 0⟩ 0x0B := by decide

theorem test_dectcp_rejects :
    parseTcp .reference [0, 7, 0, 0, 0, 3, 1, 0x83, 0x0B] tcpList = .invalidFrame .noMatchTid ∧
    parseTcp .reference [0, 0, 0, 1, 0, 3, 1, 0x83, 0x0B] tcpList = .invalidFrame .protocolId ∧
    parseTcp .reference [0, 0, 0, 0, 0, 4, 1, 0x83, 0x0B] tcpList = .invalidFrame .lengthField ∧
    parseTcp .reference [0, 0, 0, 0, 0, 8, 1, 3, 4, 0x12, 0x34, 0x56, 0x78, 0x9A] tcpList = .invalidFrame .length ∧
    parseTcp .reference [0, 0, 0, 0, 0, 7, 1, 3, 4, 0x12, 0x34, 0x56, 0x78] [⟨0, 1, 0, 2⟩, ⟨0, 2, 0, 2⟩] =
      .invalidFrame .ambiguous := by decide

theorem test_decode_checks_entries_first :
    answered (exec (.decrtu [] [⟨0, 0x11, 2, 3⟩]) (blockWith 7)) = some (7, .illegalOperand, .none) ∧
    answered (exec (.dectcp [] [⟨0, 0x11, 2, 3⟩]) (blockWith 7)) = some (7, .illegalOperand, .none) := by decide

theorem test_prsrtuq :
    parseRequest [0xF7, 0x04, 0xFF, 0xFF, 0x00, 0x7D, 0x24, 0x99] = .validRequest 247 0x04 1 65535 125 ∧
    parseRequest [0x1D, 0x03, 0x05, 0x6B, 0x00, 0x03, 0x76, 0x87] = .validRequest 0x1D 0x03 0 0x056B 3 := by decide +kernel

theorem test_prsrtuq_rejects :
    parseRequest [0x01, 0x06, 0x00, 0x01, 0x00, 0x03, 0x98, 0x0B] = .invalidFrame .fcMismatch ∧
    parseRequest [0x01, 0x03, 0x00, 0x00, 0x00, 0x01, 0x84] = .invalidFrame .short ∧
    parseRequest [0x01, 0x03, 0x00, 0x00, 0x00, 0x01, 0x00, 0x0A, 0x63] = .invalidFrame .length := by decide +kernel

/-- The frames of 2.3.1 and 2.3.2 from the response PDU rows. -/
theorem test_response_rows :
    answered (exec (.rspReadHolding (.rtu 0x11) [0xAE, 0x41, 0x56, 0x52, 0x43, 0x40] rtuList) (blockWith 7)) =
      ok7 (.parse (.success ⟨0, 0x11, 0x03, none⟩ [0xAE, 0x41, 0x56, 0x52, 0x43, 0x40])) ∧
    answered (exec (.rspReadInput (.tcp 1 1) [0xFF, 0xFE] tcpList) (blockWith 7)) =
      ok7 (.parse (.success ⟨1, 1, 0x04, some 1⟩ [0xFF, 0xFE])) := by decide +kernel

/-- The FC_MISMATCH frames of 2.3.1 and 2.3.2 from the exception PDU rows. -/
theorem test_exception_rows :
    answered (exec (.excReadInput (.rtu 0x11) 2 rtuList) (blockWith 7)) = ok7 (.parse (.invalidFrame .fcMismatch)) ∧
    answered (exec (.excReadHolding (.tcp 1 1) 2 tcpList) (blockWith 7)) = ok7 (.parse (.invalidFrame .fcMismatch)) := by
  decide +kernel

/-! ### Value decoder family (2.4) -/

theorem test_vdec_masks :
    answered (exec (.vdec [1, 2, 3] 0x05) (blockWith 7)) =
      ok7 (.formats [(.int16, .value (.int 258)), (.int32ws, .insufficientData)]) ∧
    answered (exec (.vdec [1, 2] 0x00) (blockWith 7)) = ok7 (.formats []) ∧
    answered (exec (.vdec [1, 2] 0x80) (blockWith 7)) = some (7, .illegalOperand, .none) := by decide

theorem test_vdec_integers :
    answered (exec (.vdec [0xAE, 0x41, 0x56, 0x52, 0x43, 0x40] 0x07) (blockWith 7)) = ok7 (.formats
      [(.int16, .value (.int (-20927))), (.int32be, .value (.int (-1371449774))),
        (.int32ws, .value (.int 1448259137))]) := by decide

theorem test_vdecInt16 :
    answered (exec (.vdecInt16 [0x80, 0x00, 0x00, 0x00]) (blockWith 7)) = ok7 (.formats [(.int16, .value (.int (-32768)))]) := by
  decide

theorem test_vdecInt32be :
    answered (exec (.vdecInt32be [0xFF, 0xFF, 0xFF, 0xFE]) (blockWith 7)) = ok7 (.formats [(.int32be, .value (.int (-2)))]) := by
  decide

theorem test_vdecInt32ws :
    answered (exec (.vdecInt32ws [0x00, 0x01, 0x86, 0xA0]) (blockWith 7)) =
      ok7 (.formats [(.int32ws, .value (.int (-2036334591)))]) := by decide

theorem test_vdecFloat16 :
    answered (exec (.vdecFloat16 [0xE9, 0x00]) (blockWith 7)) = ok7 (.formats [(.float16, .value (.float16 0xE900))]) := by
  decide

/-- -2560 is -(1280 * 2), 65504 is 2047 * 2^5; the smallest normal, the subnormals' ends, the specials. -/
theorem test_binary16 :
    binary16 0xE900 = .normal true 1280 1 ∧ binary16 0x7BFF = .normal false 2047 5 ∧
    binary16 0x0400 = .normal false 1024 (-24) ∧ binary16 0x03FF = .subnormal false 1023 (-24) ∧
    binary16 0x8000 = .zero true ∧ binary16 0xFC00 = .infinity true ∧ binary16 0x7E00 = .nan false 0x200 true := by decide

theorem test_vdecFloat32 :
    answered (exec (.vdecFloat32 [0xC1, 0x48, 0x00, 0x00]) (blockWith 7)) =
      ok7 (.formats [(.float32, .value (.float32 0xC1480000))]) := by decide

/-- -12.5 is -(13107200 * 2^-20); the largest finite, the smallest normal and subnormal, the specials. -/
theorem test_binary32 :
    binary32 0xC1480000 = .normal true 13107200 (-20) ∧ binary32 0x7F7FFFFF = .normal false 16777215 104 ∧
    binary32 0x00800000 = .normal false 8388608 (-149) ∧ binary32 0x00000001 = .subnormal false 1 (-149) ∧
    binary32 0x80000000 = .zero true ∧ binary32 0x7F800000 = .infinity false ∧
    binary32 0x7FC00001 = .nan false 0x400001 true := by decide

theorem test_vdecHex :
    answered (exec (.vdecHex [0xAE, 0x41, 0x09]) (blockWith 7)) =
      ok7 (.formats [(.hex, .value (.hex ['A', 'E', '4', '1', '0', '9']))]) := by decide

theorem test_vdecString :
    answered (exec (.vdecString [0x00, 0x41, 0x00, 0x00]) (blockWith 7)) =
      ok7 (.formats [(.string, .value (.text [Char.ofNat 0, 'A']))]) ∧
    answered (exec (.vdecString [0x00, 0x00]) (blockWith 7)) = ok7 (.formats [(.string, .value (.text []))]) := by decide

/-! ### System family (2.5) -/

theorem test_tidrd : answered (exec .tidrd (blockWith 0x1234)) = some (0x1234, .ok, .tid 0x1234) := by decide

theorem test_tidld : answered (exec (.tidld 0x0042) (blockWith 0x1234)) = some (0x0042, .ok, .none) := by decide

theorem test_reset : answered (resetWith .reference (blockWith 0x1234)) = some (0x0000, .ok, .none) := by decide

theorem test_reserved_opcode :
    answered (step ⟨7, [0x50, 0x42], none⟩) = some (7, .illegalCommand, .none) ∧
    answered (step ⟨7, [0x00], none⟩) = some (7, .illegalCommand, .none) := by decide

/-- 70_reset R242: an idle block waits. -/
theorem test_idle_waits : answered (step (blockWith 7)) = none := by decide

theorem test_status_codes :
    [Status.ok, .illegalCommand, .illegalOperand, .illegalUnit, .illegalCount].map statusCode = [0, 1, 2, 3, 4] := by decide

/-! ### Assembler text (30_encoding R82) -/

theorem test_assemble_decrtu :
    assembleLine ("DECRTU [11 83 02 C1 34], ".toList ++
        Char.ofNat 0x7B :: "(0, 0x11, H, 3), (1, 2, I, 4)".toList ++ [Char.ofNat 0x7D]) =
      .command (.decrtu [0x11, 0x83, 0x02, 0xC1, 0x34] [⟨0, 0x11, 0, 3⟩, ⟨1, 2, 1, 4⟩]) := by decide +kernel

theorem test_assemble_malformed :
    assembleLine "ENCRTU 1, X, 0, 1".toList = .malformed ∧ assembleLine "TIDLD 65536".toList = .malformed := by
  decide +kernel

/-! ### The environment (scenario S-1) -/

/-- What arrives in S-1 during each attempt of a unit. -/
def scenario (unit : Byte) : List (List Received) :=
  match unit.toNat with
  | 1 => [[.frame [0x01, 0x03, 0x02, 0x12, 0x34, 0xB5, 0x33]]]
  | 2 => [[.frame [0x02, 0x83, 0x02, 0x30, 0xF1]]]
  | 4 => [[.frame [0x04, 0x83, 0x0B, 0x10, 0xF6]]]
  | 5 => [[.frame [0x05, 0x03, 0x02, 0x00, 0x05, 0x89, 0x87]]]
  | 6 => [[], [.frame [0x06, 0x03, 0x02, 0x00, 0x06, 0x8D, 0x86]]]
  | _ => []

/-- The probe of S-1: Holding, address 0, count 1, timeout 1 s in milliseconds, two retries. -/
def probe (unit : Byte) : Request := ⟨unit, 0, 0, 1, 1000, 2⟩

theorem test_scenario_outcomes :
    (scanDevices .reference .rtu 1 6 (probe 1) none scenario (blockWith 7)).entries =
      [(1, .success [0x12, 0x34]), (2, .deviceError 2), (3, .noResponse), (4, .gatewayError 0x0B),
        (5, .success [0x00, 0x05]), (6, .success [0x00, 0x06])] := by decide +kernel

theorem test_scenario_requests :
    (transaction .reference .rtu (probe 3) [] (scenario 3) (blockWith 7)).sent =
      [[0x03, 0x03, 0x00, 0x00, 0x00, 0x01, 0x85, 0xE8], [0x03, 0x03, 0x00, 0x00, 0x00, 0x01, 0x85, 0xE8],
        [0x03, 0x03, 0x00, 0x00, 0x00, 0x01, 0x85, 0xE8]] ∧
    (transaction .reference .rtu (probe 3) [] (scenario 3) (blockWith 7)).waited = 3000 ∧
    (transaction .reference .rtu (probe 6) [] (scenario 6) (blockWith 7)).sent.length = 2 := by decide +kernel

/-! ### The hypotheses of the statements can be met -/

/-- A request for one register is legal whatever MAX_COUNT is. -/
theorem legalRequest_one {unit rtype : Byte} (hr : rtype = 0 ∨ rtype = 1) (h1 : 1 ≤ unit.toNat) (h2 : unit.toNat ≤ 247) :
    LegalRequest Config.params unit rtype 1 :=
  ⟨hr, ⟨h1, h2⟩, by decide, Nat.le_add_left 1 _⟩

/-- The legal requests the statements are witnessed with: the first and the last unit, both register types. -/
def LegalWitnesses : Prop :=
  LegalRequest Config.params 1 0 1 ∧ RequestsFc 0 0x03 ∧ LegalRequest Config.params 247 1 1 ∧ RequestsFc 1 0x04

theorem legalWitnesses : LegalWitnesses :=
  ⟨legalRequest_one (.inl rfl) (by decide) (by decide), .inl ⟨rfl, rfl⟩,
    legalRequest_one (.inr rfl) (by decide) (by decide), .inr ⟨rfl, rfl⟩⟩

/-- The only entry of a list of one is its only match. -/
theorem onlyMatch_single {key : Entry → Prop} {e : Entry} (h : key e) : OnlyMatch key [e] 0 e := by
  refine ⟨rfl, h, fun j e' hj _ => ?_⟩
  cases j with
  | zero => rfl
  | succ j => simp at hj

/-- A frame whose trailing CRC is wrong is no data followed by its CRC. -/
theorem not_appendCrc {b : Bytes} (h : 2 ≤ b.length) (hc : crcHolds b = false) (d : Bytes) : b ≠ appendCrc d := by
  intro hb
  rw [(crcHolds_iff h).mpr ⟨d, hb⟩] at hc
  cases hc

theorem rtuList_legal : RtypesLegal rtuList := (entriesLegal_iff _).mp (by decide)

theorem tcpList_legal : RtypesLegal tcpList := (entriesLegal_iff _).mp (by decide)

theorem rtuList_match : OnlyMatch (fun e => e.unit = 0x11) rtuList 0 ⟨0, 0x11, 0, 3⟩ := onlyMatch_single rfl

/-- The last entry of a list whose other entry has another identifier. -/
theorem tcpList_match : OnlyMatch (fun e => e.tid = 1) tcpList 1 ⟨1, 1, 1, 1⟩ := by
  refine ⟨rfl, rfl, fun j e' hj hk => ?_⟩
  match j with
  | 0 => cases hj; exact absurd hk (by decide)
  | 1 => rfl
  | j + 2 => simp [tcpList] at hj

theorem test_witness_ParametersAreLegal : 1 ≤ (1 : Byte).toNat ∧ (1 : Byte).toNat ≤ 247 ∧ (247 : Byte).toNat ≤ 247 := by
  decide

theorem test_witness_DecodeReadsEncodedCommand :
    wellFormed (.decrtu [0x11] rtuList) = true ∧ wellFormed (.excReadInput (.tcp 1 1) 2 tcpList) = true := by decide

theorem test_witness_DecodedBytesAreTheEncoding : decode [0x41, 0xFF, 0xFF, 0x42] = .command (.tidld 0xFFFF) [0x42] := by
  decide

theorem test_witness_StepRunsDecodedCommand : decode (State.mk 7 [0x40, 0x50] none).input = .command .reset [0x50] := by
  decide

theorem test_witness_StepRunsEncodedInstruction :
    wellFormed (.vdecHex [0xAE]) = true ∧
      (State.mk 7 [0x30, 0x20, 0x00, 0x01, 0xAE, 0x42] none).input = encode (.vdecHex [0xAE]) ++ [0x42] := by decide

theorem test_witness_ReservedOpcodeIsIllegalCommand :
    ∀ opcode ∈ [0x00#8, 0x03#8, 0x0F#8, 0x23#8, 0x43#8, 0x50#8, 0xFF#8],
      opcode ∉ [0x01#8, 0x02#8, 0x10#8, 0x11#8, 0x20#8, 0x21#8, 0x22#8, 0x30#8, 0x40#8, 0x41#8, 0x42#8] := by decide

theorem test_witness_StepWaitsForWholeCommand :
    wellFormed (.tidld 0x1234) = true ∧ 0 < (encode (.tidld 0x1234)).length ∧ [] = (encode (.tidld 0x1234)).take 0 ∧
      2 < (encode (.tidld 0x1234)).length ∧ [0x41, 0x12] = (encode (.tidld 0x1234)).take 2 := by decide

theorem test_witness_CrcchkMatchesExactlyItsOwnCrc :
    ([0xFF] : Bytes).length < 2 ∧ ([0xFF, 0xFF] : Bytes) = [] ++ [lo8 (crc16 []), hi8 (crc16 [])] ∧
      2 ≤ ([0xFF, 0xFE] : Bytes).length ∧ ∀ d, ([0xFF, 0xFE] : Bytes) ≠ d ++ [lo8 (crc16 d), hi8 (crc16 d)] :=
  ⟨by decide, by decide, by decide, fun d => not_appendCrc (by decide) (by decide) d⟩

theorem test_witness_SingleByteChangeFailsCrc (s : State) :
    exec (.crcchk [0xFF, 0xFF]) s = .next (returning .ok (.check true .clear) s) ∧
      1 < ([0xFF, 0xFF] : Bytes).length ∧ 0xFE ≠ byteAt [0xFF, 0xFF] 1 :=
  ⟨congrArg (finish · s) (by decide : checkFrame [0xFF, 0xFF] = .check true .clear), by decide, by decide⟩

theorem test_witness_EncrtuBuildsFrame : LegalWitnesses := legalWitnesses

theorem test_witness_EnctcpBuildsFrame : LegalWitnesses := legalWitnesses

theorem test_witness_TidIncrementsAndWraps : LegalRequest Config.params 1 0 1 ∧ (blockWith 0xFFFF).tid = 0xFFFF :=
  ⟨legalWitnesses.1, rfl⟩

/-- A wrong `rtype`; the units next to the legal ones; a count of zero. -/
theorem test_witness_EncodeRefusesInOrder :
    ((2 : Byte) ≠ 0 ∧ (2 : Byte) ≠ 1) ∧ (0 : Byte).toNat = 0 ∧ 247 < (248 : Byte).toNat ∧
      (1 ≤ (247 : Byte).toNat ∧ (247 : Byte).toNat ≤ 247 ∧ (0 : Word).toNat = 0) := by decide

theorem test_witness_RetriedRequestFrames : LegalRequest Config.params 247 1 1 := legalWitnesses.2.2.1

theorem test_witness_RequestRowsBuildTheirPdu :
    LegalRequest Config.params 1 0 1 ∧ LegalRequest Config.params 247 1 1 := ⟨legalWitnesses.1, legalWitnesses.2.2.1⟩

/-- Two allocations with another command between them. -/
theorem test_witness_AllocatedIdentifiersAreDistinct :
    (∀ i ∈ [Instr.enctcp 1 0 0 1, .tidrd, .reqReadInput .tcp 247 0 1], KeepsSequence i) ∧
      allocatedTids [.enctcp 1 0 0 1, .tidrd, .reqReadInput .tcp 247 0 1] (blockWith 0xFFFF) = [0xFFFF, 0x0000] := by
  refine ⟨by simp [KeepsSequence], ?_⟩
  have h1 : ∀ s, exec (.enctcp 1 0 0 1) s = _ := fun s => encodeTcpWith_legal legalWitnesses.1 0 s
  have h2 : ∀ s, exec (.reqReadInput .tcp 247 0 1) s = _ := fun s => encodeTcpWith_legal legalWitnesses.2.2.1 0 s
  have h3 : ∀ s, exec .tidrd s = .next (returning .ok (.tid s.tid) s) := fun _ => rfl
  simp only [allocatedTids, carryOut, h1, h2, h3]
  decide +kernel

theorem test_witness_DecodeCommandsAreTotal : RtypesLegal [] ∧ RtypesLegal tcpList ∧ ¬ RtypesLegal [⟨0, 0x11, 2, 3⟩] := by
  simp only [← entriesLegal_iff]
  decide

theorem test_witness_DecrtuAcceptsSuccess :
    RtypesLegal rtuList ∧ OnlyMatch (fun e => e.unit = 0x11) rtuList 0 ⟨0, 0x11, 0, 3⟩ ∧ RequestsFc 0 0x03 ∧
      ([0xAE, 0x41, 0x56, 0x52, 0x43, 0x40] : Bytes).length = 2 * (3 : Word).toNat :=
  ⟨rtuList_legal, rtuList_match, .inl ⟨rfl, rfl⟩, by decide⟩

theorem test_witness_DecrtuSuccessIsTheResponse (s : State) :
    exec (.decrtu [0x11, 0x03, 0x06, 0xAE, 0x41, 0x56, 0x52, 0x43, 0x40, 0x49, 0xAD] rtuList) s = .next (returning .ok
      (.parse (.success ⟨0, 0x11, 0x03, none⟩ [0xAE, 0x41, 0x56, 0x52, 0x43, 0x40])) s) :=
  (decodeRtuWith_legal Config.params _ rtuList_legal s).trans
    (congrArg (fun r => finish (.parse r) s) (show parseRtu Config.params _ rtuList = _ by decide +kernel))

theorem test_witness_DectcpAcceptsSuccess :
    RtypesLegal tcpList ∧ OnlyMatch (fun e => e.tid = 1) tcpList 1 ⟨1, 1, 1, 1⟩ ∧ RequestsFc 1 0x04 ∧
      ([0xFF, 0xFE] : Bytes).length = 2 * (1 : Word).toNat :=
  ⟨tcpList_legal, tcpList_match, .inr ⟨rfl, rfl⟩, by decide⟩

theorem test_witness_DectcpSuccessIsTheResponse (s : State) :
    exec (.dectcp [0, 1, 0, 0, 0, 5, 1, 4, 2, 0xFF, 0xFE] tcpList) s = .next (returning .ok
      (.parse (.success ⟨1, 1, 0x04, some 1⟩ [0xFF, 0xFE])) s) :=
  (decodeTcpWith_legal Config.params _ tcpList_legal s).trans
    (congrArg (fun r => finish (.parse r) s) (show parseTcp Config.params _ tcpList = _ by decide +kernel))

theorem test_witness_ExceptionResponsesAreClassified :
    RtypesLegal rtuList ∧ OnlyMatch (EnvelopeMatches (.rtu 0x11)) rtuList 0 ⟨0, 0x11, 0, 3⟩ ∧ RequestsFc 0 0x03 ∧
      RtypesLegal tcpList ∧ OnlyMatch (EnvelopeMatches (.tcp 1 1)) tcpList 1 ⟨1, 1, 1, 1⟩ ∧ RequestsFc 1 0x04 :=
  ⟨rtuList_legal, rtuList_match, .inl ⟨rfl, rfl⟩, tcpList_legal, tcpList_match, .inr ⟨rfl, rfl⟩⟩

/-- The class of code 2 is the instance's own (log 1); whichever it is, the frame is reported as that error. -/
theorem test_witness_DecrtuErrorIsTheException (s : State) :
    ∃ r, (r = .deviceError ⟨0, 0x11, 0x83, none⟩ 2 ∨ r = .gatewayError ⟨0, 0x11, 0x83, none⟩ 2) ∧
      exec (.decrtu [0x11, 0x83, 0x02, 0xC1, 0x34] rtuList) s = .next (returning .ok (.parse r) s) := by
  refine ⟨classify Config.params ⟨0, 0x11, 0x83, none⟩ 2, ?_, ?_⟩
  · rw [classify_eq]
    split
    · exact .inr rfl
    · exact .inl rfl
  · refine (decodeRtuWith_legal Config.params _ rtuList_legal s).trans ?_
    rw [parseRtu_match (b := [0x11, 0x83, 0x02, 0xC1, 0x34]) (by decide) (by decide +kernel) rtuList_match]
    rfl

/-- One frame for each clause, in the order of the clauses. -/
theorem test_witness_DecrtuReasonsInOrder :
    ([0x11, 0x83, 0x02, 0xC1] : Bytes).length < 5 ∧
    (5 ≤ ([0x11, 0x83, 0x02, 0xC1, 0x35] : Bytes).length ∧ ∀ d, [0x11, 0x83, 0x02, 0xC1, 0x35] ≠ appendCrc d) ∧
    (∀ e ∈ rtuList, e.unit ≠ byteAt (appendCrc [0x12, 0x83, 0x02]) 0) ∧
    TwoMatches (fun e => e.unit = byteAt (appendCrc [0x11, 0x83, 0x02]) 0) [⟨0, 0x11, 0, 3⟩, ⟨1, 0x11, 1, 1⟩] ∧
    (OnlyMatch (fun e => e.unit = 0x11) rtuList 0 ⟨0, 0x11, 0, 3⟩ ∧ RequestsFc 0 0x03) ∧
    (byteAt (appendCrc [0x11, 0x84, 0x02]) 1 ≠ 0x03 ∧ byteAt (appendCrc [0x11, 0x84, 0x02]) 1 ≠ 0x03 ||| 0x80) ∧
    (byteAt (appendCrc [0x11, 0x83, 0x02, 0x00]) 1 = 0x03 ||| 0x80 ∧ (appendCrc [0x11, 0x83, 0x02, 0x00]).length ≠ 5) ∧
    (byteAt (appendCrc [0x11, 0x03, 0x04]) 1 = 0x03 ∧ (byteAt (appendCrc [0x11, 0x03, 0x04]) 2).toNat ≠ 2 * (3 : Word).toNat) ∧
    (byteAt (appendCrc [0x11, 0x03, 0x06]) 1 = 0x03 ∧ (byteAt (appendCrc [0x11, 0x03, 0x06]) 2).toNat = 2 * (3 : Word).toNat ∧
      (appendCrc [0x11, 0x03, 0x06]).length ≠ 5 + (byteAt (appendCrc [0x11, 0x03, 0x06]) 2).toNat) :=
  ⟨by decide, ⟨by decide, fun d => not_appendCrc (by decide) (by decide +kernel) d⟩, by decide +kernel,
    ⟨0, 1, _, _, by decide, rfl, rfl, rfl, rfl⟩, ⟨rtuList_match, .inl ⟨rfl, rfl⟩⟩, by decide +kernel, by decide +kernel,
    by decide +kernel, by decide +kernel⟩

/-- One frame for each clause, in the order of the clauses. -/
theorem test_witness_DectcpReasonsInOrder :
    ([0, 0, 0, 0, 0, 2, 1, 0x83] : Bytes).length < 9 ∧
    (∀ e ∈ tcpList, e.tid ≠ 7) ∧
    TwoMatches (fun e => e.tid = 0) [⟨0, 1, 0, 2⟩, ⟨0, 2, 0, 2⟩] ∧
    (OnlyMatch (fun e => e.tid = 1) tcpList 1 ⟨1, 1, 1, 1⟩ ∧ RequestsFc 1 0x04) ∧
    be16 (byteAt [0, 1, 0, 1, 0, 3, 1, 0x84, 2] 2) (byteAt [0, 1, 0, 1, 0, 3, 1, 0x84, 2] 3) ≠ 0 ∧
    (be16 (byteAt [0, 1, 0, 0, 0, 4, 1, 0x84, 2] 4) (byteAt [0, 1, 0, 0, 0, 4, 1, 0x84, 2] 5)).toNat ≠ 9 - 6 ∧
    (byteAt [0, 1, 0, 0, 0, 3, 1, 0x83, 2] 7 ≠ 0x04 ∧ byteAt [0, 1, 0, 0, 0, 3, 1, 0x83, 2] 7 ≠ 0x04 ||| 0x80) ∧
    (byteAt [0, 1, 0, 0, 0, 4, 1, 0x84, 2, 0] 7 = 0x04 ||| 0x80 ∧ ([0, 1, 0, 0, 0, 4, 1, 0x84, 2, 0] : Bytes).length ≠ 9 ∧
      (be16 (byteAt [0, 1, 0, 0, 0, 4, 1, 0x84, 2, 0] 4) (byteAt [0, 1, 0, 0, 0, 4, 1, 0x84, 2, 0] 5)).toNat = 10 - 6) ∧
    (byteAt [0, 1, 0, 0, 0, 3, 1, 4, 4] 7 = 0x04 ∧ (byteAt [0, 1, 0, 0, 0, 3, 1, 4, 4] 8).toNat ≠ 2 * (1 : Word).toNat) ∧
    (byteAt [0, 1, 0, 0, 0, 3, 1, 4, 2] 7 = 0x04 ∧ (byteAt [0, 1, 0, 0, 0, 3, 1, 4, 2] 8).toNat = 2 * (1 : Word).toNat ∧
      ([0, 1, 0, 0, 0, 3, 1, 4, 2] : Bytes).length ≠ 9 + (byteAt [0, 1, 0, 0, 0, 3, 1, 4, 2] 8).toNat) :=
  ⟨by decide, by decide, ⟨0, 1, _, _, by decide, rfl, rfl, rfl, rfl⟩, ⟨tcpList_match, .inr ⟨rfl, rfl⟩⟩, by decide, by decide,
    by decide, by decide, by decide, by decide⟩

theorem test_witness_ResponseRowsAreAccepted :
    RtypesLegal rtuList ∧ OnlyMatch (EnvelopeMatches (.rtu 0x11)) rtuList 0 ⟨0, 0x11, 0, 3⟩ ∧
      ([1, 2, 3, 4, 5, 6] : Bytes).length = 2 * (3 : Word).toNat ∧
      RtypesLegal tcpList ∧ OnlyMatch (EnvelopeMatches (.tcp 1 1)) tcpList 1 ⟨1, 1, 1, 1⟩ ∧
      ([1, 2] : Bytes).length = 2 * (1 : Word).toNat :=
  ⟨rtuList_legal, rtuList_match, by decide, tcpList_legal, tcpList_match, by decide⟩

theorem test_witness_ExceptionRowsAreClassified :
    (RtypesLegal rtuList ∧ OnlyMatch (EnvelopeMatches (.rtu 0x11)) rtuList 0 ⟨0, 0x11, 0, 3⟩) ∧
      RtypesLegal tcpList ∧ OnlyMatch (EnvelopeMatches (.tcp 1 1)) tcpList 1 ⟨1, 1, 1, 1⟩ :=
  ⟨⟨rtuList_legal, rtuList_match⟩, tcpList_legal, tcpList_match⟩

theorem test_witness_PrsrtuqReadsRequestFrames :
    RequestsFc 0 0x03 ∧ ([0x01, 0x03, 0x00, 0x00, 0x00, 0x01, 0x84] : Bytes).length < 8 ∧
    (8 ≤ ([0x11, 0x03, 0x00, 0x6B, 0x00, 0x03, 0x76, 0x88] : Bytes).length ∧
      ∀ d, [0x11, 0x03, 0x00, 0x6B, 0x00, 0x03, 0x76, 0x88] ≠ appendCrc d) ∧
    8 < (appendCrc [0x01, 0x03, 0x00, 0x00, 0x00, 0x01, 0x00]).length ∧
    ((appendCrc [0x01, 0x06, 0x00, 0x01, 0x00, 0x03]).length = 8 ∧
      byteAt (appendCrc [0x01, 0x06, 0x00, 0x01, 0x00, 0x03]) 1 ≠ 0x03 ∧
      byteAt (appendCrc [0x01, 0x06, 0x00, 0x01, 0x00, 0x03]) 1 ≠ 0x04) :=
  ⟨.inl ⟨rfl, rfl⟩, by decide, ⟨by decide, fun d => not_appendCrc (by decide) (by decide +kernel) d⟩, by decide +kernel,
    by decide +kernel⟩

theorem test_witness_RequestRoundTrip : LegalWitnesses := legalWitnesses

theorem test_witness_ParsersIgnoreTid :
    Instr.prsrtuq [0x01] = .decrtu [0x01] [] ∨ Instr.prsrtuq [0x01] = .dectcp [0x01] [] ∨
      Instr.prsrtuq [0x01] = .prsrtuq [0x01] := by decide

theorem test_witness_VdecDecodesSelectedFormats :
    (0x80 : Byte).getLsbD 7 = true ∧ (0x7F : Byte).getLsbD 7 = false ∧ (0x00 : Byte).getLsbD 7 = false := by decide

theorem test_witness_IntegerFormats : ([0x12] : Bytes).length < 2 ∧ ([0x12, 0x34, 0x56] : Bytes).length < 4 := by decide

theorem test_witness_FloatFormats : ([0x12] : Bytes).length < 2 ∧ ([0x12, 0x34, 0x56] : Bytes).length < 4 := by decide

/-- The ends of each clause's range: exponent field and fraction field of 8000, 0001, 03FF, 0400, 7BFF, 7C00, 7C01,
FFFF. -/
theorem test_witness_Binary16Datum :
    ([0x8000#16, 0x0001#16, 0x03FF#16, 0x0400#16, 0x7BFF#16, 0x7C00#16, 0x7C01#16, 0xFFFF#16].map
      (fun b => (b.toNat / 2 ^ 10 % 2 ^ 5, b.toNat % 2 ^ 10))) =
      [(0, 0), (0, 1), (0, 1023), (1, 0), (30, 1023), (31, 0), (31, 1), (31, 1023)] := by decide

theorem test_witness_Binary32Datum :
    ([0x80000000#32, 0x00000001#32, 0x007FFFFF#32, 0x00800000#32, 0x7F7FFFFF#32, 0x7F800000#32, 0x7F800001#32,
      0xFFFFFFFF#32].map (fun b => (b.toNat / 2 ^ 23 % 2 ^ 8, b.toNat % 2 ^ 23))) =
      [(0, 0), (0, 1), (0, 8388607), (1, 0), (254, 8388607), (255, 0), (255, 1), (255, 8388607)] := by decide

theorem test_witness_HexFormat : ([0xAE] : Bytes) ≠ [] ∧ 0 < ([0xAE] : Bytes).length := by decide

theorem test_witness_StringFormat : ([0x00] : Bytes) ≠ [] := by decide

theorem test_witness_NumericFormatsReadTheirWindow (s : State) :
    ([0x12, 0x34] : Bytes).length = 2 ∧ ([0x12, 0x34, 0x56, 0x78] : Bytes).length = 4 ∧
      exec (.vdecHex [0x12]) s = exec (.vdecHex [0x12]) s ∧ exec (.vdecString [0x00, 0x41]) s = exec (.vdecString [0x00, 0x41]) s ∧
      ([0x00, 0x41] : Bytes) ≠ [] ∧ ([0x00, 0x41] : Bytes).getLast? ≠ some 0 :=
  ⟨by decide, by decide, rfl, rfl, by decide, by decide⟩

theorem test_witness_NextCommandSeesLoadedTid : LegalRequest Config.params 1 0 1 := legalWitnesses.1

theorem test_witness_OnlyThreeCommandsWriteTid (s : State) :
    exec .tidrd s = .next (returning .ok (.tid s.tid) s) ∧
      exec (.tidld 5) s = .next (returning .ok .none { s with tid := 5 }) := ⟨rfl, rfl⟩

theorem test_witness_OnlyTwoCommandsReadTid (s : State) :
    exec (.vdecInt16 [0x12]) s = .next (returning .ok (.formats [(.int16, .insufficientData)]) s) ∧
      Instr.vdecInt16 [0x12] ≠ .tidrd ∧ ∀ unit rtype addr count, coreCommand (.vdecInt16 [0x12]) ≠ .enctcp unit rtype addr count :=
  ⟨rfl, by decide, by simp [coreCommand]⟩

theorem test_witness_FailedCommandsWriteNothing (s : State) :
    exec (.enctcp 0 0 0 1) s = .next (returning .illegalUnit .none s) ∧ Status.illegalUnit ≠ .ok := ⟨rfl, by decide⟩

theorem test_witness_StatusesOfEachCommand (s : State) :
    exec (.tidld 1) s = .next (returning .ok .none { s with tid := 1 }) ∧
      exec (.vdec [] 0x80) s = .next (returning .illegalOperand .none s) ∧
      exec (.decrtu [] [⟨0, 1, 2, 1⟩]) s = .next (returning .illegalOperand .none s) := ⟨rfl, rfl, rfl⟩

theorem test_witness_StepKeepsInvariant :
    Inv State.reset ∧ step State.reset = .next State.reset := ⟨fun r h => (by cases h), rfl⟩

theorem test_witness_TransactionsRetryOnlyExpiredAttempts :
    LegalRequest .reference 1 0 125 ∧
      (transaction .reference .rtu (probe 3) [] [] (blockWith 7)).outcome = .noResponse ∧
      (transaction .reference .rtu (probe 1) [] (scenario 1) (blockWith 7)).outcome ≠ .noResponse :=
  ⟨by unfold LegalRequest; decide, by decide +kernel, by decide +kernel⟩

/-- A legal request in each framing, the other request being to another unit and under another identifier. -/
theorem test_witness_ExceptionResponseIsNotRetried :
    LegalRequest .reference 1 0 1 ∧ RequestsFc 0 0x03 ∧ RtypesLegal [⟨0, 2, 1, 1⟩] ∧
      (∀ e ∈ [(⟨0, 2, 1, 1⟩ : Entry)], ¬ EnvelopeMatches (.rtu 1) e) ∧
      ∀ e ∈ [(⟨0, 2, 1, 1⟩ : Entry)], ¬ EnvelopeMatches (.tcp (blockWith 7).tid 9) e :=
  ⟨by unfold LegalRequest; decide, .inl ⟨rfl, rfl⟩, (entriesLegal_iff _).mp (by decide), by simp [EnvelopeMatches],
    by simp [EnvelopeMatches, blockWith]⟩

/-- 60_exceptions R223 over TCP, on the DEVICE_ERROR frame of 2.3.2 and then a frame that would be a success: one request,
and the first answer is the outcome. -/
theorem test_exception_ends_tcp_transaction :
    (transaction .reference .tcp ⟨1, 1, 0, 1, 1000, 2⟩ [⟨0, 1, 0, 2⟩]
      [[.frame [0, 1, 0, 0, 0, 3, 1, 0x84, 2], .frame [0, 1, 0, 0, 0, 5, 1, 4, 2, 0xFF, 0xFE]]] (blockWith 1)) =
      ⟨.deviceError 2, [[0, 1, 0, 0, 0, 6, 1, 4, 0, 0, 0, 1]], 0,
        ⟨2, [], some ⟨.ok, .parse (.deviceError ⟨1, 1, 0x84, some 1⟩ 2)⟩⟩⟩ := by decide +kernel

theorem test_witness_ScanReportsEveryUnit :
    (scanDevices .reference .rtu 246 247 (probe 1) none (fun _ => []) (blockWith 7)).failed = false := by decide +kernel

end Sys2Proof.Tests
end

/-! SUPPORT. The codec assembled from the laws of its fields: the decoder reads the descriptor of every well-formed
instruction back as the command that carries it, and that command does what the instruction does (spec/30_encoding R78;
log 4). -/

namespace Sys2Proof

/-- Every instruction is carried by a command of 30_encoding R73 with the same descriptor. -/
theorem carrier_statement (i : Instr) : Laws.Carrier.Statement i := by
  cases i with
  | crc16 data => exact Laws.Carrier.crc16 data
  | crcchk frame => exact Laws.Carrier.crcchk frame
  | encrtu unit rtype addr count => exact Laws.Carrier.encrtu unit rtype addr count
  | enctcp unit rtype addr count => exact Laws.Carrier.enctcp unit rtype addr count
  | decrtu frame outstanding => exact Laws.Carrier.decrtu frame outstanding
  | dectcp frame outstanding => exact Laws.Carrier.dectcp frame outstanding
  | prsrtuq frame => exact Laws.Carrier.prsrtuq frame
  | vdec raw fmask => exact Laws.Carrier.vdec raw fmask
  | reset => exact Laws.Carrier.reset
  | tidld v => exact Laws.Carrier.tidld v
  | tidrd => exact Laws.Carrier.tidrd
  | reqReadHolding framing unit addr count => exact Laws.Carrier.reqReadHolding framing unit addr count
  | reqReadInput framing unit addr count => exact Laws.Carrier.reqReadInput framing unit addr count
  | rspReadHolding envelope data outstanding => exact Laws.Carrier.rspReadHolding envelope data outstanding
  | rspReadInput envelope data outstanding => exact Laws.Carrier.rspReadInput envelope data outstanding
  | excReadHolding envelope code outstanding => exact Laws.Carrier.excReadHolding envelope code outstanding
  | excReadInput envelope code outstanding => exact Laws.Carrier.excReadInput envelope code outstanding
  | vdecInt16 raw => exact Laws.Carrier.vdecInt16 raw
  | vdecInt32be raw => exact Laws.Carrier.vdecInt32be raw
  | vdecInt32ws raw => exact Laws.Carrier.vdecInt32ws raw
  | vdecFloat16 raw => exact Laws.Carrier.vdecFloat16 raw
  | vdecFloat32 raw => exact Laws.Carrier.vdecFloat32 raw
  | vdecHex raw => exact Laws.Carrier.vdecHex raw
  | vdecString raw => exact Laws.Carrier.vdecString raw

/-! ### Each operand reader undoes its encoder -/

theorem bytesFit_iff (b : Bytes) : bytesFit b = true ↔ b.length ≤ 65535 := by
  simp [bytesFit]

theorem readFrame_bytesField (make : Bytes → Instr) {frame : Bytes} (h : bytesFit frame = true) (rest : Bytes) :
    readFrame make (bytesField frame ++ rest) = some (make frame, rest) := by
  rw [readFrame, readBytes_bytesField ((bytesFit_iff frame).mp h)]

theorem readRequest_operands (make : Byte → Byte → Word → Word → Instr) (unit rtype : Byte) (addr count : Word)
    (rest : Bytes) :
    readRequest make (unit :: rtype :: wordBytes addr ++ wordBytes count ++ rest) =
      some (make unit rtype addr count, rest) := by
  simp [readRequest, wordBytes]

theorem readResponse_operands (make : Bytes → List Entry → Instr) {frame : Bytes} {es : List Entry}
    (h : (bytesFit frame && entriesFit es) = true) (rest : Bytes) :
    readResponse make (BitVec.ofNat 8 es.length :: bytesField frame ++ es.flatMap entryField ++ rest) =
      some (make frame es, rest) := by
  rw [Bool.and_eq_true, bytesFit_iff, entriesFit, decide_eq_true_eq] at h
  obtain ⟨hframe, hes⟩ := h
  have hn : (BitVec.ofNat 8 es.length).toNat = es.length := by
    rw [BitVec.toNat_ofNat]; omega
  simp only [List.cons_append, List.append_assoc, readResponse, readBytes_bytesField hframe, hn,
    readEntries_entryFields]

theorem readTidld_wordBytes (v : Word) (rest : Bytes) :
    readTidld (wordBytes v ++ rest) = some (.tidld v, rest) := by
  rw [readTidld, readWord_wordBytes]

/-! ### The decoder undoes the encoder -/

theorem decode_of_readOperands {o : Opcode} {ops rest : Bytes} {i : Instr} (h : readOperands o ops = some (i, rest)) :
    decode (opcodeByte o :: ops) = .command i rest := by
  rw [decode_opcode, h]

theorem decode_encode_vdec {raw : Bytes} (fmask : Byte) (h : bytesFit raw = true) (rest : Bytes) :
    decode (encode (.vdec raw fmask) ++ rest) = .command (.vdec raw fmask) rest :=
  decode_of_readOperands (o := .vdec) (readFrame_bytesField (fun raw => .vdec raw fmask) h rest)

theorem decode_encode_requestCommand (framing : Framing) (unit rtype : Byte) (addr count : Word) (rest : Bytes) :
    decode (encode (requestCommand framing unit rtype addr count) ++ rest) =
      .command (requestCommand framing unit rtype addr count) rest := by
  cases framing with
  | rtu => exact decode_of_readOperands (o := .encrtu) (readRequest_operands .encrtu unit rtype addr count rest)
  | tcp => exact decode_of_readOperands (o := .enctcp) (readRequest_operands .enctcp unit rtype addr count rest)

theorem decode_encode_responseCommand {envelope : Envelope} {pdu : Bytes} {outstanding : List Entry}
    (h : wellFormed (responseCommand envelope pdu outstanding) = true) (rest : Bytes) :
    decode (encode (responseCommand envelope pdu outstanding) ++ rest) =
      .command (responseCommand envelope pdu outstanding) rest := by
  cases envelope with
  | rtu unit => exact decode_of_readOperands (o := .decrtu) (readResponse_operands .decrtu h rest)
  | tcp tid unit => exact decode_of_readOperands (o := .dectcp) (readResponse_operands .dectcp h rest)

/-- The round trip of 30_encoding R78: a descriptor is read back as its carrier command, and the bytes after it are
left. -/
theorem decode_encode {i : Instr} (hw : wellFormed i = true) (rest : Bytes) :
    decode (encode i ++ rest) = .command (coreCommand i) rest := by
  obtain ⟨hencode, -, hcarrier⟩ := carrier_statement i
  have h := hcarrier hw
  rw [← hencode]
  cases i with
  | crc16 data => exact decode_of_readOperands (o := .crc16) (readFrame_bytesField .crc16 h rest)
  | crcchk frame => exact decode_of_readOperands (o := .crcchk) (readFrame_bytesField .crcchk h rest)
  | encrtu unit rtype addr count => exact decode_encode_requestCommand .rtu unit rtype addr count rest
  | enctcp unit rtype addr count => exact decode_encode_requestCommand .tcp unit rtype addr count rest
  | decrtu frame outstanding => exact decode_of_readOperands (o := .decrtu) (readResponse_operands .decrtu h rest)
  | dectcp frame outstanding => exact decode_of_readOperands (o := .dectcp) (readResponse_operands .dectcp h rest)
  | prsrtuq frame => exact decode_of_readOperands (o := .prsrtuq) (readFrame_bytesField .prsrtuq h rest)
  | vdec raw fmask => exact decode_encode_vdec fmask h rest
  | reset => exact decode_of_readOperands (o := .reset) rfl
  | tidld v => exact decode_of_readOperands (o := .tidld) (readTidld_wordBytes v rest)
  | tidrd => exact decode_of_readOperands (o := .tidrd) rfl
  | reqReadHolding framing unit addr count => exact decode_encode_requestCommand framing unit 0 addr count rest
  | reqReadInput framing unit addr count => exact decode_encode_requestCommand framing unit 1 addr count rest
  | rspReadHolding envelope data outstanding => exact decode_encode_responseCommand h rest
  | rspReadInput envelope data outstanding => exact decode_encode_responseCommand h rest
  | excReadHolding envelope code outstanding => exact decode_encode_responseCommand h rest
  | excReadInput envelope code outstanding => exact decode_encode_responseCommand h rest
  | vdecInt16 raw => exact decode_encode_vdec (formatMask .int16) h rest
  | vdecInt32be raw => exact decode_encode_vdec (formatMask .int32be) h rest
  | vdecInt32ws raw => exact decode_encode_vdec (formatMask .int32ws) h rest
  | vdecFloat16 raw => exact decode_encode_vdec (formatMask .float16) h rest
  | vdecFloat32 raw => exact decode_encode_vdec (formatMask .float32) h rest
  | vdecHex raw => exact decode_encode_vdec (formatMask .hex) h rest
  | vdecString raw => exact decode_encode_vdec (formatMask .string) h rest

end Sys2Proof

/-! SUPPORT. An instruction does what its carrier command does (log 4), a step runs the command at the front of the
channel, and the parameters leave every one-register request legal (spec/00_scope R6, R7). -/

namespace Sys2Proof.Machine

open Sys2Proof.Safety

theorem exec_requestCommand (framing : Framing) (unit rtype : Byte) (addr count : Word) (s : State) :
    exec (requestCommand framing unit rtype addr count) s =
      marshalWith Config.params framing unit rtype addr count s := by
  cases framing <;> rfl

theorem exec_responseCommand (envelope : Envelope) (pdu : Bytes) (outstanding : List Entry) (s : State) :
    exec (responseCommand envelope pdu outstanding) s = receiveWith Config.params envelope pdu outstanding s := by
  cases envelope <;> rfl

/-- VDEC with the mask of one format decodes that format alone. -/
theorem exec_vdec_formatMask (f : Format) (raw : Bytes) (s : State) :
    exec (.vdec raw (formatMask f)) s = decodeOne f raw s := by
  have hbit : (formatMask f).getLsbD 7 = false := by cases f <;> decide
  have hvalues := decodeValues_ok hbit raw s
  rw [selectedFormats_formatMask] at hvalues
  exact hvalues

theorem exec_coreCommand (i : Instr) (s : State) : exec (coreCommand i) s = exec i s := by
  cases i with
  | crc16 | crcchk | encrtu | enctcp | decrtu | dectcp | prsrtuq | vdec | reset | tidld | tidrd => rfl
  | reqReadHolding framing unit addr count => exact exec_requestCommand framing unit 0 addr count s
  | reqReadInput framing unit addr count => exact exec_requestCommand framing unit 1 addr count s
  | rspReadHolding envelope data outstanding => exact exec_responseCommand envelope (responsePdu 0x03 data) outstanding s
  | rspReadInput envelope data outstanding => exact exec_responseCommand envelope (responsePdu 0x04 data) outstanding s
  | excReadHolding envelope code outstanding =>
    exact exec_responseCommand envelope (exceptionPdu 0x03 code) outstanding s
  | excReadInput envelope code outstanding =>
    exact exec_responseCommand envelope (exceptionPdu 0x04 code) outstanding s
  | vdecInt16 raw => exact exec_vdec_formatMask .int16 raw s
  | vdecInt32be raw => exact exec_vdec_formatMask .int32be raw s
  | vdecInt32ws raw => exact exec_vdec_formatMask .int32ws raw s
  | vdecFloat16 raw => exact exec_vdec_formatMask .float16 raw s
  | vdecFloat32 raw => exact exec_vdec_formatMask .float32 raw s
  | vdecHex raw => exact exec_vdec_formatMask .hex raw s
  | vdecString raw => exact exec_vdec_formatMask .string raw s

theorem step_of_decode_command {s : State} {i : Instr} {rest : Bytes} (h : decode s.input = .command i rest) :
    step s = exec i (leaveInput rest s) := by
  rw [step, h]

theorem step_of_encode {s : State} {i : Instr} {rest : Bytes} (hw : wellFormed i = true)
    (hinput : s.input = encode i ++ rest) : step s = exec i (leaveInput rest s) := by
  have hdecode : decode s.input = .command (coreCommand i) rest := by rw [hinput, decode_encode hw]
  rw [step_of_decode_command hdecode, exec_coreCommand]

/-- Nothing is known of this instance's MAX_COUNT but its range (log 1). -/
theorem params_legal : Config.params.Legal :=
  ⟨Nat.le_add_left 1 _, Config.maxCountLessOne.isLt⟩

theorem legalRequest_one_of_legal {p : Params} (hp : p.Legal) {unit rtype : Byte} (hr : rtype = 0 ∨ rtype = 1)
    (hu : 1 ≤ unit.toNat ∧ unit.toNat ≤ 247) : LegalRequest p unit rtype 1 :=
  ⟨hr, hu, Nat.le_refl 1, hp.1⟩

/-- The frame of a TCP request begins with its identifier (30_encoding R68). -/
theorem tcpFrame_take_two (tid : Word) (unit : Byte) (pdu : Bytes) :
    (tcpFrame tid unit pdu).take 2 = [hi8 tid, lo8 tid] := rfl

/-! ### The scope statements -/

/-- Settles O7: the decoder reads the descriptor back as the carrier command, which does what the instruction does. -/
theorem stepRunsEncodedInstruction : Obligations.StepRunsEncodedInstruction :=
  fun _ _ _ hw hinput => step_of_encode hw hinput

/-- Settles O50: both commands run at the state TIDLD leaves, where TID is the loaded value. -/
theorem nextCommandSeesLoadedTid : Obligations.NextCommandSeesLoadedTid := by
  intro v unit rtype addr count s hlegal
  have hencode := encodeTcpWith_legal hlegal addr (returning .ok .none (setTid v s))
  exact ⟨_, _, rfl, rfl, hencode, rfl, _, rfl, tcpFrame_take_two v unit _⟩

/-- Settles O2: the range of MAX_COUNT, and with it the count 1 for both register types. -/
theorem parametersAreLegal : Obligations.ParametersAreLegal :=
  ⟨params_legal, fun _ hlow hhigh =>
    ⟨legalRequest_one_of_legal params_legal (.inl rfl) ⟨hlow, hhigh⟩,
      legalRequest_one_of_legal params_legal (.inr rfl) ⟨hlow, hhigh⟩⟩⟩

/-- Settles O6: the command branch of `step`. -/
theorem stepRunsDecodedCommand : Obligations.StepRunsDecodedCommand :=
  fun _ _ _ hdecode => step_of_decode_command hdecode

end Sys2Proof.Machine

/-! SUPPORT. Which instructions read TID and which write it (spec/10_state R21): all but ENCTCP, RESET, TIDLD and TIDRD
answer alike from every state and leave TID and the channel as they were. -/

namespace Sys2Proof.Machine

open Sys2Proof.Safety

/-- A meaning that reads no state and writes neither TID nor the channel: one status and one result from everywhere. -/
def StateIndependent (meaning : State → StepOutcome) : Prop :=
  ∃ status r, ∀ s, meaning s = .next (returning status r s)

theorem stateIndependent_finish (r : Result) : StateIndependent (finish r) := ⟨.ok, r, finish_eq r⟩

theorem stateIndependent_encodeRtuWith (p : Params) (unit rtype : Byte) (addr count : Word) :
    StateIndependent (encodeRtuWith p unit rtype addr count) := by
  cases h : validate p unit rtype addr count with
  | none => exact ⟨_, _, encodeRtuWith_legal ((validate_eq_none_iff p unit rtype addr count).mp h) addr⟩
  | some status => exact ⟨status, .none, fun s => by simp only [encodeRtuWith, h, fail_eq]⟩

theorem stateIndependent_decodeRtuWith (p : Params) (frame : Bytes) (outstanding : List Entry) :
    StateIndependent (decodeRtuWith p frame outstanding) := by
  by_cases h : RtypesLegal outstanding
  · exact ⟨_, _, decodeRtuWith_legal p frame h⟩
  · exact ⟨_, _, decodeRtuWith_illegal p frame h⟩

theorem stateIndependent_decodeTcpWith (p : Params) (frame : Bytes) (outstanding : List Entry) :
    StateIndependent (decodeTcpWith p frame outstanding) := by
  by_cases h : RtypesLegal outstanding
  · exact ⟨_, _, decodeTcpWith_legal p frame h⟩
  · exact ⟨_, _, decodeTcpWith_illegal p frame h⟩

theorem stateIndependent_receiveWith (p : Params) (envelope : Envelope) (pdu : Bytes) (outstanding : List Entry) :
    StateIndependent (receiveWith p envelope pdu outstanding) := by
  cases envelope with
  | rtu unit => exact stateIndependent_decodeRtuWith p (rtuFrame unit pdu) outstanding
  | tcp tid unit => exact stateIndependent_decodeTcpWith p (tcpFrame tid unit pdu) outstanding

theorem stateIndependent_decodeValues (raw : Bytes) (fmask : Byte) : StateIndependent (decodeValues raw fmask) := by
  cases h : fmask.getLsbD 7 with
  | false => exact ⟨_, _, decodeValues_ok h raw⟩
  | true => exact ⟨_, _, decodeValues_refused h raw⟩

/-- An instruction that ENCTCP carries: the command itself, or a request row in TCP framing. -/
def CarriedByEnctcp (i : Instr) : Prop :=
  ∃ unit rtype addr count, coreCommand i = .enctcp unit rtype addr count

/-- A request row is state-independent in RTU framing, and carried by ENCTCP in TCP framing. -/
theorem stateIndependent_or_carriedByEnctcp {i : Instr} {framing : Framing} {unit rtype : Byte} {addr count : Word}
    (hcore : coreCommand i = requestCommand framing unit rtype addr count)
    (hexec : exec i = marshalWith Config.params framing unit rtype addr count) :
    StateIndependent (exec i) ∨ CarriedByEnctcp i := by
  cases framing with
  | rtu =>
    rw [hexec]
    exact .inl (stateIndependent_encodeRtuWith Config.params unit rtype addr count)
  | tcp => exact .inr ⟨unit, rtype, addr, count, hcore⟩

/-- The four ways to use TID: an allocation by ENCTCP, a new value by RESET or TIDLD, and reading it by TIDRD. -/
theorem exec_stateIndependent_or_usesTid (i : Instr) :
    (StateIndependent (exec i) ∨ CarriedByEnctcp i) ∨ i = .reset ∨ (∃ v, i = .tidld v) ∨ i = .tidrd := by
  cases i with
  | crc16 | crcchk | prsrtuq | vdecInt16 | vdecInt32be | vdecInt32ws | vdecFloat16 | vdecFloat32 | vdecHex
  | vdecString => exact .inl (.inl (stateIndependent_finish _))
  | encrtu => exact .inl (stateIndependent_or_carriedByEnctcp (framing := .rtu) rfl rfl)
  | enctcp => exact .inl (stateIndependent_or_carriedByEnctcp (framing := .tcp) rfl rfl)
  | reqReadHolding | reqReadInput => exact .inl (stateIndependent_or_carriedByEnctcp rfl rfl)
  | decrtu frame outstanding => exact .inl (.inl (stateIndependent_decodeRtuWith _ frame outstanding))
  | dectcp frame outstanding => exact .inl (.inl (stateIndependent_decodeTcpWith _ frame outstanding))
  | rspReadHolding | rspReadInput | excReadHolding | excReadInput =>
    exact .inl (.inl (stateIndependent_receiveWith _ _ _ _))
  | vdec raw fmask => exact .inl (.inl (stateIndependent_decodeValues raw fmask))
  | reset => exact .inr (.inl rfl)
  | tidld v => exact .inr (.inr (.inl ⟨v, rfl⟩))
  | tidrd => exact .inr (.inr (.inr rfl))

theorem exec_reset_eq (s : State) :
    exec .reset s = .next (returning .ok .none (setTid Config.params.tidInit s)) := finish_eq .none _

theorem exec_tidld_eq (v : Word) (s : State) :
    exec (.tidld v) s = .next (returning .ok .none (setTid v s)) := finish_eq .none _

/-- A state-independent meaning gives the same response from any two states. -/
theorem StateIndependent.response_eq {meaning : State → StepOutcome} (hm : StateIndependent meaning)
    {s s' t t' : State} (h : meaning s = .next t) (h' : meaning s' = .next t') : t.response = t'.response := by
  obtain ⟨status, r, hnext⟩ := hm
  rw [hnext, next_inj] at h h'
  rw [← h, ← h', returning_response, returning_response]

/-! ### The statements about TID -/

/-- Settles O37: each of the three parsers is state-independent. -/
theorem parsersIgnoreTid : Obligations.ParsersIgnoreTid := by
  intro i frame outstanding s s' hi
  have hindep : StateIndependent (exec i) := by
    rcases hi with rfl | rfl | rfl
    · exact stateIndependent_decodeRtuWith _ frame outstanding
    · exact stateIndependent_decodeTcpWith _ frame outstanding
    · exact stateIndependent_finish _
  obtain ⟨status, r, hnext⟩ := hindep
  exact ⟨⟨status, r⟩, hnext s, hnext s'⟩

/-- Settles O51, by the four shapes of answer. -/
theorem onlyThreeCommandsWriteTid : Obligations.OnlyThreeCommandsWriteTid := by
  intro i s t h
  rcases exec_cases i s with ⟨r, hnext, -, -⟩ | ⟨status, -, -, hnext⟩ | ⟨f, hnext, hcarried⟩ |
    ⟨v, hi, hnext⟩ | ⟨hi, hnext⟩ <;> rw [hnext, next_inj] at h <;> subst h
  · exact ⟨rfl, .inl rfl⟩
  · exact ⟨rfl, .inl rfl⟩
  · exact ⟨rfl, .inr (.inl ⟨rfl, ⟨f, rfl⟩, hcarried⟩)⟩
  · exact ⟨rfl, .inr (.inr (.inl hi))⟩
  · exact ⟨rfl, .inr (.inr (.inr ⟨hi, rfl⟩))⟩

/-- Settles O52: besides the two readers of TID there are the state-independent instructions, and RESET and TIDLD, which
return no result. -/
theorem onlyTwoCommandsReadTid : Obligations.OnlyTwoCommandsReadTid := by
  intro i s s' t t' h h' hread hcarried
  rcases exec_stateIndependent_or_usesTid i with (hindep | ⟨unit, rtype, addr, count, hcore⟩) | rfl | ⟨v, rfl⟩ | hi
  · exact hindep.response_eq h h'
  · exact absurd hcore (hcarried unit rtype addr count)
  · rw [exec_reset_eq, next_inj] at h h'
    rw [← h, ← h', returning_response, returning_response]
  · rw [exec_tidld_eq, next_inj] at h h'
    rw [← h, ← h', returning_response, returning_response]
  · exact absurd hi hread

/-- Settles O1: RESET loads the TID of a new block. -/
theorem resetGivesTidInit : Obligations.ResetGivesTidInit := ⟨rfl, exec_reset_eq⟩

end Sys2Proof.Machine

/-! SUPPORT. The identifiers of a stretch of commands (spec/20_memory R51, R53): each allocation returns TID and
advances it, and nothing else moves TID, so they are consecutive values from TID on, modulo 65536. -/

namespace Sys2Proof.Machine

open Sys2Proof.Safety

/-- The identifiers of `n` allocations in a row, from `v` on (41_marshal R115). -/
def consecutiveTids (v : Word) (n : Nat) : List Word := (List.range n).map fun k => v + BitVec.ofNat 16 k

@[simp] theorem consecutiveTids_zero (v : Word) : consecutiveTids v 0 = [] := rfl

theorem consecutiveTids_succ (v : Word) (n : Nat) :
    consecutiveTids v (n + 1) = v :: consecutiveTids (v + 1) n := by
  have hshift : ∀ k : Nat, v + BitVec.ofNat 16 (k + 1) = v + 1 + BitVec.ofNat 16 k := fun k => by
    rw [BitVec.ofNat_add, BitVec.add_comm (BitVec.ofNat 16 k), BitVec.add_assoc]
    rfl
  rw [consecutiveTids, List.range_succ_eq_map, List.map_cons, List.map_map]
  exact congrArg₂ List.cons (BitVec.add_zero v) (List.map_congr_left fun k _ => hshift k)

/-- Offsets below 65536 differ as words, so the sequence does not come round to its start. -/
theorem consecutiveTids_nodup (v : Word) {n : Nat} (hn : n ≤ 65536) : (consecutiveTids v n).Nodup := by
  refine List.nodup_range.map_on fun j hj k hk heq => ?_
  have hoffset : BitVec.ofNat 16 j = BitVec.ofNat 16 k := (BitVec.add_right_inj v).mp heq
  have hmod : j % 65536 = k % 65536 := by simpa using congrArg BitVec.toNat hoffset
  rw [List.mem_range] at hj hk
  omega

/-! ### One command of a stretch -/

theorem allocatedTids_cons {i : Instr} {s t : State} (h : exec i s = .next t) (is : List Instr) :
    allocatedTids (i :: is) s = t.response.toList.filterMap allocatedTid ++ allocatedTids is t := by
  simp only [allocatedTids, carryOut, h, List.filterMap_append]

theorem allocatedTid_eq_none {status : Status} {r : Result} (hr : ∀ f v, r ≠ .frameTid f v) :
    allocatedTid ⟨status, r⟩ = none := by
  cases r with
  | frameTid f v => exact absurd rfl (hr f v)
  | _ => rfl

theorem allocatedTids_cons_of_not_frameTid {i : Instr} {s t : State} {status : Status} {r : Result}
    (h : exec i s = .next (returning status r t)) (hr : ∀ f v, r ≠ .frameTid f v) (is : List Instr) :
    allocatedTids (i :: is) s = allocatedTids is (returning status r t) := by
  simp [allocatedTids_cons h, allocatedTid_eq_none hr]

theorem allocatedTids_cons_of_frameTid {i : Instr} {s t : State} {status : Status} {f : Bytes} {v : Word}
    (h : exec i s = .next (returning status (.frameTid f v) t)) (is : List Instr) :
    allocatedTids (i :: is) s = v :: allocatedTids is (returning status (.frameTid f v) t) := by
  simp [allocatedTids_cons h, allocatedTid]

/-- A command other than TIDLD and RESET allocates nothing and leaves TID, or allocates TID and advances it. -/
theorem allocatedTids_cons_cases {i : Instr} (hi : KeepsSequence i) (s : State) (is : List Instr) :
    ∃ t, (t.tid = s.tid ∧ allocatedTids (i :: is) s = allocatedTids is t) ∨
      (t.tid = s.tid + 1 ∧ allocatedTids (i :: is) s = s.tid :: allocatedTids is t) := by
  obtain ⟨hreset, htidld⟩ := hi
  rcases exec_cases i s with ⟨r, hnext, hr, -⟩ | ⟨status, -, -, hnext⟩ | ⟨f, hnext, -⟩ | ⟨v, hv, -⟩ | ⟨hv, -⟩
  · exact ⟨returning .ok r s, .inl ⟨rfl, allocatedTids_cons_of_not_frameTid hnext hr is⟩⟩
  · exact ⟨returning status .none s, .inl ⟨rfl, allocatedTids_cons_of_not_frameTid hnext (by simp) is⟩⟩
  · exact ⟨_, .inr ⟨rfl, allocatedTids_cons_of_frameTid hnext is⟩⟩
  · exact absurd hv (htidld v)
  · exact absurd hv hreset

/-! ### A whole stretch -/

/-- Without TIDLD and RESET the allocated identifiers are consecutive from TID on. -/
theorem allocatedTids_eq_consecutiveTids {is : List Instr} (his : ∀ i ∈ is, KeepsSequence i) (s : State) :
    allocatedTids is s = consecutiveTids s.tid (allocatedTids is s).length := by
  induction is generalizing s with
  | nil => rfl
  | cons i is ih =>
    obtain ⟨hi, hrest⟩ := List.forall_mem_cons.mp his
    obtain ⟨t, ⟨htid, hcons⟩ | ⟨htid, hcons⟩⟩ := allocatedTids_cons_cases hi s is
    · rw [hcons, ← htid]
      exact ih hrest t
    · rw [hcons, List.length_cons, consecutiveTids_succ, ← htid, ← ih hrest t]

/-- Settles O23: fewer than 65536 consecutive identifiers do not come round. -/
theorem allocatedIdentifiersAreDistinct : Obligations.AllocatedIdentifiersAreDistinct := by
  intro is s his hlen
  rw [allocatedTids_eq_consecutiveTids his s]
  exact consecutiveTids_nodup s.tid hlen.le

end Sys2Proof.Machine

/-! SUPPORT. What the decoder reads is the encoding and nothing else (spec/30_encoding R78): a command has one serialized
form, and no part of a descriptor short of the whole is a command (log 5). -/

namespace Sys2Proof

/-- Settles O3, by the round trip of each operand reader. -/
theorem decodeReadsEncodedCommand : Obligations.DecodeReadsEncodedCommand :=
  fun _ rest hw => decode_encode hw rest

/-! ### Each operand reader reads its encoder's bytes and no others -/

theorem readFrame_eq_some {make : Bytes → Instr} {b rest : Bytes} {i : Instr}
    (h : readFrame make b = some (i, rest)) :
    ∃ frame, i = make frame ∧ b = bytesField frame ++ rest ∧ bytesFit frame = true := by
  unfold readFrame at h
  split at h
  case h_1 => cases h
  case h_2 frame _ hread =>
    cases h
    obtain ⟨hb, hlength⟩ := readBytes_eq_some hread
    exact ⟨frame, rfl, hb, (bytesFit_iff frame).mpr hlength⟩

theorem readRequest_eq_some {make : Byte → Byte → Word → Word → Instr} {b rest : Bytes} {i : Instr}
    (h : readRequest make b = some (i, rest)) :
    ∃ unit rtype addr count, i = make unit rtype addr count ∧
      b = unit :: rtype :: wordBytes addr ++ wordBytes count ++ rest := by
  unfold readRequest at h
  split at h
  case h_1 unit rtype addrHi addrLo countHi countLo _ =>
    cases h
    exact ⟨unit, rtype, be16 addrHi addrLo, be16 countHi countLo, rfl, by simp [wordBytes]⟩
  case h_2 => cases h

theorem readResponse_eq_some {make : Bytes → List Entry → Instr} {b rest : Bytes} {i : Instr}
    (h : readResponse make b = some (i, rest)) :
    ∃ frame es, i = make frame es ∧ (bytesFit frame && entriesFit es) = true ∧
      b = BitVec.ofNat 8 es.length :: bytesField frame ++ es.flatMap entryField ++ rest := by
  unfold readResponse at h
  split at h
  case h_1 => cases h
  case h_2 nent b =>
    split at h
    case h_1 => cases h
    case h_2 frame afterFrame hframe =>
      split at h
      case h_1 => cases h
      case h_2 es _ hes =>
        cases h
        obtain ⟨hb, hlength⟩ := readBytes_eq_some hframe
        obtain ⟨hafter, hcount⟩ := readEntries_eq_some hes
        have hfit : entriesFit es = true := decide_eq_true (by have := nent.isLt; omega)
        refine ⟨frame, es, rfl, by rw [(bytesFit_iff frame).mpr hlength, hfit]; rfl, ?_⟩
        rw [hb, hafter, hcount, BitVec.ofNat_toNat, BitVec.setWidth_eq, List.cons_append, List.cons_append,
          List.append_assoc]

theorem readVdec_eq_some {b rest : Bytes} {i : Instr} (h : readVdec b = some (i, rest)) :
    ∃ raw fmask, i = .vdec raw fmask ∧ b = fmask :: bytesField raw ++ rest ∧ bytesFit raw = true := by
  cases b with
  | nil => cases h
  | cons fmask b =>
    obtain ⟨raw, hi, rfl, hfit⟩ := readFrame_eq_some (make := fun raw => .vdec raw fmask) h
    exact ⟨raw, fmask, hi, rfl, hfit⟩

theorem readTidld_eq_some {b rest : Bytes} {i : Instr} (h : readTidld b = some (i, rest)) :
    ∃ v, i = .tidld v ∧ b = wordBytes v ++ rest := by
  unfold readTidld at h
  split at h
  case h_1 => cases h
  case h_2 v _ hread =>
    cases h
    exact ⟨v, rfl, readWord_eq_some hread⟩

/-- Behind an opcode, the operands that are read are those of a well-formed command of 30_encoding R73. -/
theorem encode_of_readOperands {o : Opcode} {ops rest : Bytes} {i : Instr}
    (h : readOperands o ops = some (i, rest)) :
    opcodeByte o :: ops = encode i ++ rest ∧ wellFormed i = true ∧ coreCommand i = i := by
  cases o with
  | crc16 | crcchk | prsrtuq =>
    obtain ⟨frame, rfl, rfl, hfit⟩ := readFrame_eq_some h
    exact ⟨rfl, hfit, rfl⟩
  | encrtu | enctcp =>
    obtain ⟨unit, rtype, addr, count, rfl, rfl⟩ := readRequest_eq_some h
    exact ⟨rfl, rfl, rfl⟩
  | decrtu | dectcp =>
    obtain ⟨frame, es, rfl, hfit, rfl⟩ := readResponse_eq_some h
    exact ⟨rfl, hfit, rfl⟩
  | vdec =>
    obtain ⟨raw, fmask, rfl, rfl, hfit⟩ := readVdec_eq_some h
    exact ⟨rfl, hfit, rfl⟩
  | tidld =>
    obtain ⟨v, rfl, rfl⟩ := readTidld_eq_some h
    exact ⟨rfl, rfl, rfl⟩
  | reset | tidrd =>
    cases h
    exact ⟨rfl, rfl, rfl⟩

/-- Settles O4: an opcode, and the operands that its reader took. -/
theorem decodedBytesAreTheEncoding : Obligations.DecodedBytesAreTheEncoding := by
  intro b i rest h
  obtain ⟨o, ops, rfl, hops⟩ := decode_eq_command h
  exact encode_of_readOperands hops

/-! ### No proper prefix of a descriptor is a command -/

/-- A reserved opcode is seen in the first byte, whatever follows. -/
theorem decode_append_of_reserved {b rest : Bytes} {op : Byte} (h : decode b = .reserved op rest) (more : Bytes) :
    decode (b ++ more) = .reserved op (rest ++ more) := by
  match b with
  | [] => cases h
  | byte :: ops =>
    simp only [decode] at h
    split at h
    case h_1 hreserved =>
      cases h
      simp only [List.cons_append, decode, hreserved]
    case h_2 => split at h <;> cases h

/-- A command is read the same with more bytes behind it. -/
theorem decode_append_of_command {b rest : Bytes} {i : Instr} (h : decode b = .command i rest) (more : Bytes) :
    decode (b ++ more) = .command i (rest ++ more) := by
  obtain ⟨rfl, hw, hcore⟩ := decodedBytesAreTheEncoding b i rest h
  rw [List.append_assoc, decode_encode hw, hcore]

/-- The whole descriptor decodes with nothing left over, so a prefix that decodes to anything is the whole. -/
theorem decode_take_encode {i : Instr} (hw : wellFormed i = true) {k : Nat} (hk : k < (encode i).length) :
    decode ((encode i).take k) = .waiting := by
  have hwhole : decode ((encode i).take k ++ (encode i).drop k) = .command (coreCommand i) [] := by
    have h := decode_encode hw []
    rwa [List.append_nil, ← List.take_append_drop k (encode i)] at h
  cases h : decode ((encode i).take k) with
  | waiting => rfl
  | reserved op rest =>
    rw [decode_append_of_reserved h] at hwhole
    cases hwhole
  | command j rest =>
    rw [decode_append_of_command h, Decoded.command.injEq, List.append_eq_nil_iff] at hwhole
    have hlength := congrArg List.length hwhole.2.2
    rw [List.length_drop, List.length_nil] at hlength
    omega

/-! ### Descriptors and lines of 95_test_vectors -/

/-- Settles O5: the bytes of each descriptor are the encoding of its command. -/
theorem specDescriptorsDecode : Obligations.SpecDescriptorsDecode :=
  ⟨decode_encode (i := .enctcp 1 0 0 2) rfl [],
    decode_encode (i := .encrtu 2 1 0x0010 2) rfl [],
    decode_encode (i := .prsrtuq [0x11, 0x03, 0x00, 0x6B, 0x00, 0x03, 0x76, 0x87]) rfl [],
    decode_encode (i := .decrtu [0x11, 0x03, 0x06, 0xAE, 0x41, 0x56, 0x52, 0x43, 0x40, 0x49, 0xAD] [⟨0, 0x11, 0, 3⟩])
      rfl [],
    decode_encode (i := .vdec [0x41, 0x20, 0x00, 0x00] 0x36) rfl [],
    decode_encode (i := .tidld 0xFFFF) rfl [],
    decode_encode (i := .reset) rfl [],
    decode_encode (i := .tidrd) rfl [],
    rfl⟩

/-- Settles O57: each line is computed from its characters. -/
theorem assemblerLines : Obligations.AssemblerLines := by
  unfold Obligations.AssemblerLines
  decide +kernel

end Sys2Proof

namespace Sys2Proof.Machine

theorem step_of_decode_waiting {s : State} (h : decode s.input = .waiting) : step s = .next s := by
  rw [step, h]

/-- Settles O9: a proper prefix of a descriptor is no command and no reserved opcode. -/
theorem stepWaitsForWholeCommand : Obligations.StepWaitsForWholeCommand := by
  intro s i k hw hk hinput
  apply step_of_decode_waiting
  rw [hinput, decode_take_encode hw hk]

/-- Settles O11: the carrier command's meaning is the row's. -/
theorem rowDoesWhatItsCommandDoes : Obligations.RowDoesWhatItsCommandDoes :=
  fun i s => (exec_coreCommand i s).symm

end Sys2Proof.Machine

/-! SUPPORT. A response PDU in either envelope, taken in for the one entry its envelope matches (spec/42_parse R132, R134,
R135). The two framings differ in where the PDU stands in the frame and in how many bytes surround it; what the PDU then
comes to is said once for both. -/

namespace Sys2Proof.Machine

open Sys2Proof.Safety

/-! ### Where the PDU stands in its frame -/

/-- The index of the function code in an envelope's frame (30_encoding R66, R68). -/
def pduIndex : Envelope → Nat
  | .rtu _ => 1
  | .tcp _ _ => 7

/-- The length of an envelope's frame around an exception PDU (30_encoding R65). -/
def exceptionLength : Envelope → Nat
  | .rtu _ => 5
  | .tcp _ _ => 9

theorem tcpFrame_cons (tid : Word) (unit fc arg : Byte) (body : Bytes) :
    tcpFrame tid unit (fc :: arg :: body) =
      [hi8 tid, lo8 tid, 0, 0, hi8 (BitVec.ofNat 16 (3 + body.length)), lo8 (BitVec.ofNat 16 (3 + body.length)),
        unit, fc, arg] ++ body := by
  have hlength : 1 + (fc :: arg :: body).length = 3 + body.length := by simp only [List.length_cons]; omega
  rw [tcpFrame, hlength]
  rfl

theorem tcpFrame_exceptionPdu (tid : Word) (unit fc code : Byte) :
    tcpFrame tid unit (exceptionPdu fc code) =
      [hi8 tid, lo8 tid, 0, 0, 0, 3, unit, exceptionCode fc, code] := by
  have hfield : wordBytes (BitVec.ofNat 16 3) = [0, 3] := by decide
  exact congrArg (fun field => wordBytes tid ++ wordBytes 0 ++ field ++ [unit, exceptionCode fc, code]) hfield

theorem envelopeFrame_length (envelope : Envelope) (fc arg : Byte) (body : Bytes) :
    (envelopeFrame envelope (fc :: arg :: body)).length = exceptionLength envelope + body.length := by
  cases envelope with
  | rtu unit =>
    simp only [envelopeFrame, rtuFrame, appendCrc_length, exceptionLength, List.length_cons]
    omega
  | tcp tid unit =>
    rw [envelopeFrame, tcpFrame_cons, List.length_append]
    rfl

/-- The byte after the function code: the byte count of a success, the code of an exception. -/
theorem byteAt_envelopeFrame (envelope : Envelope) (fc arg : Byte) (body : Bytes) :
    byteAt (envelopeFrame envelope (fc :: arg :: body)) (pduIndex envelope + 1) = arg := by
  cases envelope <;> rfl

theorem slice_envelopeFrame (envelope : Envelope) (fc arg : Byte) (body : Bytes) :
    slice (envelopeFrame envelope (fc :: arg :: body)) (pduIndex envelope + 2) body.length = body := by
  cases envelope with
  | rtu unit => exact List.take_left
  | tcp tid unit => exact List.take_length

/-- The length field of a TCP frame counts the bytes behind it (30_encoding R68). -/
theorem lengthField_tcpFrame (tid : Word) (unit fc arg : Byte) {body : Bytes} (h : body.length ≤ 255) :
    (be16 (byteAt (tcpFrame tid unit (fc :: arg :: body)) 4) (byteAt (tcpFrame tid unit (fc :: arg :: body)) 5)).toNat =
      (tcpFrame tid unit (fc :: arg :: body)).length - 6 := by
  have hlength := envelopeFrame_length (.tcp tid unit) fc arg body
  simp only [envelopeFrame, exceptionLength] at hlength
  rw [hlength, tcpFrame_cons]
  change (be16 (hi8 (BitVec.ofNat 16 (3 + body.length))) (lo8 (BitVec.ofNat 16 (3 + body.length)))).toNat = _
  rw [be16_hi8_lo8, BitVec.toNat_ofNat]
  omega

/-! ### The decode command of an envelope -/

section

variable {envelope : Envelope} {outstanding : List Entry} {k : Nat} {e : Entry}

theorem parseRtu_envelope {unit fc arg : Byte} {body : Bytes} (p : Params)
    (hm : OnlyMatch (EnvelopeMatches (.rtu unit)) outstanding k e) :
    parseRtu p (rtuFrame unit (fc :: arg :: body)) outstanding =
      parsePdu p (matchedIn (.rtu unit) k fc) e (rtuFrame unit (fc :: arg :: body)) 1 5 :=
  parseRtu_match (by simp [rtuFrame, appendCrc_length]) (crcHolds_appendCrc _) hm

theorem parseTcp_envelope {tid : Word} {unit fc arg : Byte} {body : Bytes} (p : Params) (hbody : body.length ≤ 255)
    (hm : OnlyMatch (EnvelopeMatches (.tcp tid unit)) outstanding k e) :
    parseTcp p (tcpFrame tid unit (fc :: arg :: body)) outstanding =
      parsePdu p (matchedIn (.tcp tid unit) k fc) e (tcpFrame tid unit (fc :: arg :: body)) 7 9 := by
  have htid : be16 (byteAt (tcpFrame tid unit (fc :: arg :: body)) 0)
      (byteAt (tcpFrame tid unit (fc :: arg :: body)) 1) = tid := be16_hi8_lo8 tid
  have hprotocol : be16 (byteAt (tcpFrame tid unit (fc :: arg :: body)) 2)
      (byteAt (tcpFrame tid unit (fc :: arg :: body)) 3) = 0 := be16_hi8_lo8 0
  have hlength : 9 ≤ (tcpFrame tid unit (fc :: arg :: body)).length :=
    (envelopeFrame_length (.tcp tid unit) fc arg body).ge.trans' (Nat.le_add_right 9 _)
  rw [parseTcp_match hlength (k := k) (e := e) (by rw [htid]; exact hm), if_neg (not_not.mpr hprotocol),
    if_neg (not_not.mpr (lengthField_tcpFrame tid unit fc arg hbody)), htid]
  rfl

variable (hr : RtypesLegal outstanding) (hm : OnlyMatch (EnvelopeMatches envelope) outstanding k e)
include hr hm

/-- With legal entries and one match, a decode command gets as far as the PDU in either framing. -/
theorem receiveWith_match (p : Params) (fc arg : Byte) {body : Bytes} (hbody : body.length ≤ 255) (s : State) :
    receiveWith p envelope (fc :: arg :: body) outstanding s = .next (returning .ok (.parse
      (parsePdu p (matchedIn envelope k fc) e (envelopeFrame envelope (fc :: arg :: body)) (pduIndex envelope)
        (exceptionLength envelope))) s) := by
  cases envelope with
  | rtu unit => exact (decodeRtuWith_legal p _ hr s).trans (by rw [parseRtu_envelope p hm]; rfl)
  | tcp tid unit => exact (decodeTcpWith_legal p _ hr s).trans (by rw [parseTcp_envelope p hbody hm]; rfl)

/-- A success response with the data that the matched entry asked for is accepted (R134, R135). -/
theorem receiveWith_responsePdu {fc : Byte} {raw : Bytes} (hfc : RequestsFc e.rtype fc)
    (hcount : raw.length = 2 * e.count.toNat) (hraw : raw.length ≤ 255) (p : Params) (s : State) :
    receiveWith p envelope (responsePdu fc raw) outstanding s =
      .next (returning .ok (.parse (.success (matchedIn envelope k fc) raw)) s) := by
  have hm_fc : (matchedIn envelope k fc).fc = functionCode e.rtype := by
    rw [functionCode_of_requestsFc hfc]
    cases envelope <;> rfl
  have hn : (BitVec.ofNat 8 raw.length).toNat = raw.length := by
    rw [BitVec.toNat_ofNat]; omega
  rw [responsePdu, receiveWith_match hr hm p fc _ hraw, parsePdu]
  simp only [byteAt_envelopeFrame, envelopeFrame_length, hn]
  rw [if_neg (hm_fc ▸ (exceptionCode_ne e.rtype).symm), if_pos hm_fc, if_neg (not_not.mpr hcount),
    if_neg (not_not.mpr rfl), slice_envelopeFrame]

/-- An exception response is classified by its code, whatever the code (R133). -/
theorem receiveWith_exceptionPdu {fc : Byte} (hfc : RequestsFc e.rtype fc) (code : Byte) (p : Params) (s : State) :
    receiveWith p envelope (exceptionPdu fc code) outstanding s =
      .next (returning .ok (.parse (if code ∈ p.gatewayCodes
        then .gatewayError (matchedIn envelope k (exceptionCode fc)) code
        else .deviceError (matchedIn envelope k (exceptionCode fc)) code)) s) := by
  have hm_fc : (matchedIn envelope k (exceptionCode fc)).fc = exceptionCode (functionCode e.rtype) := by
    rw [functionCode_of_requestsFc hfc]
    cases envelope <;> rfl
  rw [exceptionPdu, receiveWith_match hr hm p _ code (Nat.zero_le _), parsePdu]
  simp only [byteAt_envelopeFrame, envelopeFrame_length, List.length_nil, Nat.add_zero]
  rw [if_pos hm_fc, if_neg (not_not.mpr rfl), classify_eq]

end

/-! ### The statements about response frames and rows -/

/-- Settles O25: the frame is the RTU envelope around a success PDU. -/
theorem decrtuAcceptsSuccess : Obligations.DecrtuAcceptsSuccess :=
  fun unit _ _ _ _ _ s hr hm hfc hcount hraw =>
    receiveWith_responsePdu (envelope := .rtu unit) hr hm hfc hcount hraw Config.params s

/-- Settles O27: the frame is the TCP envelope around a success PDU. -/
theorem dectcpAcceptsSuccess : Obligations.DectcpAcceptsSuccess := by
  intro tid unit fc raw outstanding k e s hr hm hfc hcount hraw
  rw [← tcpFrame_cons]
  exact receiveWith_responsePdu (envelope := .tcp tid unit) hr hm hfc hcount hraw Config.params s

/-- Settles O29: the frames are the two envelopes around an exception PDU. -/
theorem exceptionResponsesAreClassified : Obligations.ExceptionResponsesAreClassified := by
  intro envelope fc code outstanding k e s i hr hm hfc hi
  have hexec : exec i s = receiveWith Config.params envelope (exceptionPdu fc code) outstanding s := by
    rw [hi]
    cases envelope with
    | rtu unit => rfl
    | tcp tid unit =>
      rw [receiveWith, tcpFrame_exceptionPdu]
      rfl
  rw [hexec]
  exact receiveWith_exceptionPdu hr hm hfc code Config.params s

/-- Settles O33: each row is its decode command on a success PDU. -/
theorem responseRowsAreAccepted : Obligations.ResponseRowsAreAccepted :=
  fun _ _ _ _ _ s hr hm hcount hraw =>
    ⟨fun h => receiveWith_responsePdu hr hm (.inl ⟨h, rfl⟩) hcount hraw Config.params s,
      fun h => receiveWith_responsePdu hr hm (.inr ⟨h, rfl⟩) hcount hraw Config.params s⟩

/-- Settles O34: each row is its decode command on an exception PDU. -/
theorem exceptionRowsAreClassified : Obligations.ExceptionRowsAreClassified :=
  fun _ code _ _ _ s hr hm =>
    ⟨fun h => receiveWith_exceptionPdu hr hm (.inl ⟨h, rfl⟩) code Config.params s,
      fun h => receiveWith_exceptionPdu hr hm (.inr ⟨h, rfl⟩) code Config.params s⟩

/-! ### The request rows -/

/-- ENCTCP of a legal request, its frame byte by byte (41_marshal R114). -/
theorem encodeTcpWith_bytes {p : Params} {unit rtype fc : Byte} {count : Word} (h : LegalRequest p unit rtype count)
    (hfc : RequestsFc rtype fc) (addr : Word) (s : State) :
    encodeTcpWith p unit rtype addr count s = .next (returning .ok (.frameTid
      [hi8 s.tid, lo8 s.tid, 0, 0, 0, 6, unit, fc, hi8 addr, lo8 addr, hi8 count, lo8 count] s.tid)
      { s with tid := s.tid + 1 }) := by
  rw [encodeTcpWith_legal h, functionCode_of_requestsFc hfc, tcpFrame_request]
  rfl

/-- ENCRTU of a legal request, its frame byte by byte (41_marshal R113). -/
theorem encodeRtuWith_bytes {p : Params} {unit rtype fc : Byte} {count : Word} (h : LegalRequest p unit rtype count)
    (hfc : RequestsFc rtype fc) (addr : Word) (s : State) :
    encodeRtuWith p unit rtype addr count s = .next (returning .ok (.frame
      (appendCrc [unit, fc, hi8 addr, lo8 addr, hi8 count, lo8 count])) s) := by
  rw [encodeRtuWith_legal h, functionCode_of_requestsFc hfc, rtuFrame_request]

/-- Settles O22: each row is the encode command of its framing with the row's register type. -/
theorem requestRowsBuildTheirPdu : Obligations.RequestRowsBuildTheirPdu :=
  fun _ addr _ s =>
    ⟨fun h => ⟨encodeRtuWith_bytes h (.inl ⟨rfl, rfl⟩) addr s, encodeTcpWith_bytes h (.inl ⟨rfl, rfl⟩) addr s⟩,
      fun h => ⟨encodeRtuWith_bytes h (.inr ⟨rfl, rfl⟩) addr s, encodeTcpWith_bytes h (.inr ⟨rfl, rfl⟩) addr s⟩⟩

end Sys2Proof.Machine

/-! SUPPORT. Every meaning answers a legal response (spec/30_encoding R77, 60_exceptions R202, R204): one lemma for each
shared operation, then one case for each instruction. What a step leaves is what its command answered. -/

namespace Sys2Proof.Machine

open Sys2Proof.Safety

/-- A meaning that answers a next state with a response of 30_encoding R77. -/
def AnswersLegally (o : StepOutcome) : Prop :=
  ∃ status r s, o = .next (returning status r s) ∧ ResponseLegal Config.params ⟨status, r⟩

theorem answersLegally_ok {r : Result} (h : ResultLegal Config.params r) (s : State) :
    AnswersLegally (.next (returning .ok r s)) :=
  ⟨.ok, r, s, rfl, fun hstatus => absurd rfl hstatus, h⟩

theorem answersLegally_none (status : Status) (s : State) : AnswersLegally (.next (returning status .none s)) :=
  ⟨status, .none, s, rfl, fun _ => rfl, trivial⟩

/-! ### The encode commands -/

theorem resultLegal_rtuFrame (p : Params) (unit fc : Byte) (addr count : Word) :
    ResultLegal p (.frame (rtuFrame unit (requestPdu fc addr count))) :=
  ⟨appendCrc_length _, crcHolds_appendCrc _⟩

theorem resultLegal_tcpFrame (p : Params) (tid : Word) (unit fc : Byte) (addr count : Word) :
    ResultLegal p (.frameTid (tcpFrame tid unit (requestPdu fc addr count)) tid) := by
  rw [tcpFrame_request]
  exact ⟨rfl, be16_hi8_lo8 tid, (by decide : be16 0 0 = 0), (by decide : be16 0 6 = 6)⟩

theorem answersLegally_encodeRtuWith (p : Params) (unit rtype : Byte) (addr count : Word) (s : State) :
    AnswersLegally (encodeRtuWith p unit rtype addr count s) := by
  rcases encodeRtuWith_cases p unit rtype addr count s with ⟨-, status, -, hnext⟩ | ⟨-, hnext⟩ <;> rw [hnext]
  · exact answersLegally_none status s
  · exact answersLegally_ok (resultLegal_rtuFrame _ unit _ addr count) s

theorem answersLegally_encodeTcpWith (p : Params) (unit rtype : Byte) (addr count : Word) (s : State) :
    AnswersLegally (encodeTcpWith p unit rtype addr count s) := by
  rcases encodeTcpWith_cases p unit rtype addr count s with ⟨-, status, -, hnext⟩ | ⟨-, hnext⟩ <;> rw [hnext]
  · exact answersLegally_none status s
  · exact answersLegally_ok (resultLegal_tcpFrame _ s.tid unit _ addr count) _

theorem answersLegally_marshalWith (p : Params) (framing : Framing) (unit rtype : Byte) (addr count : Word)
    (s : State) : AnswersLegally (marshalWith p framing unit rtype addr count s) := by
  cases framing with
  | rtu => exact answersLegally_encodeRtuWith p unit rtype addr count s
  | tcp => exact answersLegally_encodeTcpWith p unit rtype addr count s

/-! ### CRCCHK and the parsers -/

theorem resultLegal_checkFrame (p : Params) (frame : Bytes) : ResultLegal p (checkFrame frame) := by
  unfold checkFrame
  split
  · exact .inl rfl
  · split
    · exact rfl
    · exact .inr rfl

theorem functionCode_eq (rtype : Byte) : functionCode rtype = 0x03 ∨ functionCode rtype = 0x04 := by
  unfold functionCode
  split
  · exact .inl rfl
  · exact .inr rfl

theorem exceptionCode_functionCode_eq (rtype : Byte) :
    exceptionCode (functionCode rtype) = 0x83 ∨ exceptionCode (functionCode rtype) = 0x84 := by
  rcases functionCode_eq rtype with h | h <;> rw [h]
  · exact .inl rfl
  · exact .inr rfl

theorem parseLegal_classify (p : Params) {m : Matched} (h : m.fc = 0x83 ∨ m.fc = 0x84) (code : Byte) :
    ParseLegal p (classify p m code) := by
  rw [classify_eq]
  split
  next hmem => exact ⟨h, hmem⟩
  next hmem => exact ⟨h, hmem⟩

theorem slice_length {b : Bytes} {i n : Nat} (h : i + n ≤ b.length) : (slice b i n).length = n := by
  rw [slice, List.length_take, List.length_drop]
  omega

/-- An even byte count of one byte is at most 254, and a frame of the length it gives holds that many bytes of data. -/
theorem parseLegal_parsePdu (p : Params) (m : Matched) (e : Entry) (b : Bytes) {i n : Nat} (hin : i + 2 ≤ n) :
    ParseLegal p (parsePdu p m e b i n) := by
  rcases parsePdu_cases p m e b i n with ⟨-, -, h⟩ | ⟨hfc, -, h⟩ | ⟨-, -, h⟩ | ⟨-, -, -, h⟩ |
    ⟨hfc, hcount, hlength, h⟩ | ⟨-, -, h⟩ <;> rw [h]
  · exact (by decide : Reason.length ≠ .clear)
  · exact parseLegal_classify p (hfc ▸ exceptionCode_functionCode_eq e.rtype) _
  · exact (by decide : Reason.byteCount ≠ .clear)
  · exact (by decide : Reason.length ≠ .clear)
  · have hraw : (slice b (i + 2) (byteAt b (i + 1)).toNat).length = (byteAt b (i + 1)).toNat :=
      slice_length (by omega)
    have hbyte := (byteAt b (i + 1)).isLt
    exact ⟨hfc ▸ functionCode_eq e.rtype, by omega, by omega⟩
  · exact (by decide : Reason.fcMismatch ≠ .clear)

theorem parseLegal_parseRtu (p : Params) (b : Bytes) (outstanding : List Entry) :
    ParseLegal p (parseRtu p b outstanding) := by
  rcases parseRtu_cases p b outstanding with ⟨reason, hreason, h⟩ | ⟨-, -, k, e, -, h⟩ <;> rw [h]
  · rintro rfl
    simp at hreason
  · exact parseLegal_parsePdu p _ e b (by decide)

theorem parseLegal_parseTcp (p : Params) (b : Bytes) (outstanding : List Entry) :
    ParseLegal p (parseTcp p b outstanding) := by
  rcases parseTcp_cases p b outstanding with ⟨reason, hreason, h⟩ | ⟨-, -, -, k, e, -, h⟩ <;> rw [h]
  · rintro rfl
    simp at hreason
  · exact parseLegal_parsePdu p _ e b (by decide)

theorem answersLegally_decodeRtuWith (b : Bytes) (outstanding : List Entry) (s : State) :
    AnswersLegally (decodeRtuWith Config.params b outstanding s) := by
  by_cases hr : RtypesLegal outstanding
  · rw [decodeRtuWith_legal _ b hr]
    exact answersLegally_ok (r := .parse _) (parseLegal_parseRtu _ b outstanding) s
  · rw [decodeRtuWith_illegal _ b hr]
    exact answersLegally_none .illegalOperand s

theorem answersLegally_decodeTcpWith (b : Bytes) (outstanding : List Entry) (s : State) :
    AnswersLegally (decodeTcpWith Config.params b outstanding s) := by
  by_cases hr : RtypesLegal outstanding
  · rw [decodeTcpWith_legal _ b hr]
    exact answersLegally_ok (r := .parse _) (parseLegal_parseTcp _ b outstanding) s
  · rw [decodeTcpWith_illegal _ b hr]
    exact answersLegally_none .illegalOperand s

theorem answersLegally_receiveWith (envelope : Envelope) (pdu : Bytes) (outstanding : List Entry) (s : State) :
    AnswersLegally (receiveWith Config.params envelope pdu outstanding s) := by
  cases envelope with
  | rtu unit => exact answersLegally_decodeRtuWith _ outstanding s
  | tcp tid unit => exact answersLegally_decodeTcpWith _ outstanding s

theorem requestLegal_parseRequest (b : Bytes) : RequestLegal (parseRequest b) := by
  unfold parseRequest
  split
  · exact .inl rfl
  · split
    · exact .inr (.inl rfl)
    · split
      · exact .inr (.inr (.inl rfl))
      · split
        next => exact .inr (.inr (.inr rfl))
        next hfc =>
          by_cases h3 : byteAt b 1 = 0x03
          · exact .inl ⟨h3, if_pos h3⟩
          · exact .inr ⟨not_not.mp fun h4 => hfc ⟨h3, h4⟩, if_neg h3⟩

/-! ### VDEC -/

theorem hexDigit_range (d : BitVec 4) :
    ('0' ≤ hexDigit d ∧ hexDigit d ≤ '9') ∨ ('A' ≤ hexDigit d ∧ hexDigit d ≤ 'F') := by
  revert d; decide

theorem hexText_range {raw : Bytes} {c : Char} (h : c ∈ raw.flatMap hexByte) :
    ('0' ≤ c ∧ c ≤ '9') ∨ ('A' ≤ c ∧ c ≤ 'F') := by
  obtain ⟨b, -, hc⟩ := List.mem_flatMap.mp h
  rw [hexByte, List.mem_pair] at hc
  rcases hc with rfl | rfl <;> exact hexDigit_range _

theorem sext16_range (v : Word) : -32768 ≤ sext16 v ∧ sext16 v ≤ 32767 := by
  have hlow := BitVec.le_toInt v
  have hhigh := BitVec.toInt_lt (x := v)
  unfold sext16
  omega

theorem sext32_range (v : BitVec 32) : -2147483648 ≤ sext32 v ∧ sext32 v ≤ 2147483647 := by
  have hlow := BitVec.le_toInt v
  have hhigh := BitVec.toInt_lt (x := v)
  unfold sext32
  omega

/-- Each format gives a value of its own kind and range, or INSUFFICIENT_DATA (43_value_decode R163 to R172). -/
theorem formatEntryLegal_decodeFormat (f : Format) (raw : Bytes) : FormatEntryLegal (f, decodeFormat f raw) := by
  cases f with
  | int16 =>
    rw [decodeFormat, decodeInt16.eq_def]
    split
    · exact sext16_range _
    · trivial
  | int32be =>
    rw [decodeFormat, decodeInt32be.eq_def]
    split
    · exact sext32_range _
    · trivial
  | int32ws =>
    rw [decodeFormat, decodeInt32ws.eq_def]
    split
    · exact sext32_range _
    · trivial
  | float16 =>
    rw [decodeFormat, decodeFloat16.eq_def]
    split <;> trivial
  | float32 =>
    rw [decodeFormat, decodeFloat32.eq_def]
    split <;> trivial
  | hex =>
    cases raw with
    | nil => trivial
    | cons b r =>
      have hlength := hexText_length (b :: r)
      rw [List.length_cons] at hlength
      exact ⟨by omega, by omega, fun _ hc => hexText_range hc⟩
  | string =>
    cases raw with
    | nil => trivial
    | cons b r =>
      intro c hc
      obtain ⟨byte, -, rfl⟩ := List.mem_map.mp hc
      rw [latin1_toNat]
      exact Nat.le_of_lt_succ byte.isLt

/-- The selected formats stand in ascending bit order, each with its own result. -/
theorem resultLegal_formats (p : Params) (raw : Bytes) (fmask : Byte) :
    ResultLegal p (.formats ((selectedFormats fmask).map fun f => (f, decodeFormat f raw))) := by
  constructor
  · rw [List.map_map]
    exact (List.map_id _).symm ▸ List.filter_sublist
  · intro entry hentry
    obtain ⟨f, -, rfl⟩ := List.mem_map.mp hentry
    exact formatEntryLegal_decodeFormat f raw

theorem answersLegally_decodeValues (raw : Bytes) (fmask : Byte) (s : State) :
    AnswersLegally (decodeValues raw fmask s) := by
  cases hbit : fmask.getLsbD 7 with
  | false =>
    rw [decodeValues_ok hbit]
    exact answersLegally_ok (resultLegal_formats _ raw fmask) s
  | true =>
    rw [decodeValues_refused hbit]
    exact answersLegally_none .illegalOperand s

theorem answersLegally_decodeOne (f : Format) (raw : Bytes) (s : State) : AnswersLegally (decodeOne f raw s) :=
  exec_vdec_formatMask f raw s ▸ answersLegally_decodeValues raw (formatMask f) s

/-! ### Every instruction and every step -/

theorem answersLegally_exec (i : Instr) (s : State) : AnswersLegally (exec i s) := by
  cases i with
  | crc16 data => exact answersLegally_ok (r := .crc _) trivial s
  | crcchk frame => exact answersLegally_ok (resultLegal_checkFrame _ frame) s
  | encrtu unit rtype addr count => exact answersLegally_encodeRtuWith _ unit rtype addr count s
  | enctcp unit rtype addr count => exact answersLegally_encodeTcpWith _ unit rtype addr count s
  | decrtu frame outstanding => exact answersLegally_decodeRtuWith frame outstanding s
  | dectcp frame outstanding => exact answersLegally_decodeTcpWith frame outstanding s
  | prsrtuq frame => exact answersLegally_ok (r := .request _) (requestLegal_parseRequest frame) s
  | vdec raw fmask => exact answersLegally_decodeValues raw fmask s
  | reset => exact answersLegally_none .ok _
  | tidld v => exact answersLegally_none .ok _
  | tidrd => exact answersLegally_ok (r := .tid _) trivial s
  | reqReadHolding | reqReadInput => exact answersLegally_marshalWith _ _ _ _ _ _ s
  | rspReadHolding | rspReadInput | excReadHolding | excReadInput => exact answersLegally_receiveWith _ _ _ s
  | vdecInt16 | vdecInt32be | vdecInt32ws | vdecFloat16 | vdecFloat32 | vdecHex | vdecString =>
    exact answersLegally_decodeOne _ _ s

theorem inv_of_answersLegally {o : StepOutcome} {t : State} (h : AnswersLegally o) (ht : o = .next t) : Inv t := by
  obtain ⟨status, r, s, rfl, hlegal⟩ := h
  rw [next_inj] at ht
  subst ht
  intro response hresponse
  rw [returning_response, Option.some.injEq] at hresponse
  exact hresponse ▸ hlegal

/-- A step answers as a meaning does, or waits and changes nothing. -/
theorem answersLegally_step_or_waits (s : State) : AnswersLegally (step s) ∨ step s = .next s := by
  cases h : decode s.input with
  | command i rest => exact .inl (step_of_decode_command h ▸ answersLegally_exec i _)
  | reserved op rest =>
    have hstep : step s = illegalCommand (leaveInput rest s) := by rw [step, h]
    exact .inl (hstep ▸ answersLegally_none .illegalCommand _)
  | waiting => exact .inr (step_of_decode_waiting h)

/-- Settles O56: a command leaves its own legal response, and a waiting block keeps the one it has. -/
theorem stepKeepsInvariant : Obligations.StepKeepsInvariant := by
  intro s t hs hstep
  rcases answersLegally_step_or_waits s with h | h
  · exact inv_of_answersLegally h hstep
  · rw [h, next_inj] at hstep
    exact hstep ▸ hs

end Sys2Proof.Machine

/-! SUPPORT. The CRC register as a plain number (spec/40_crc R100), and what CRC16 and CRCCHK answer (R102, R103). -/

namespace Sys2Proof

open Sys2Proof.Safety

/-! ### The register as a number -/

/-- The low bit that the register tests is the parity that the number tests. -/
theorem crcBit_toNat (c : Word) : (crcBit c).toNat = crcShift c.toNat := by
  have hhalf : (c >>> 1).toNat = c.toNat / 2 := by
    rw [BitVec.toNat_ushiftRight, Nat.shiftRight_eq_div_pow, pow_one]
  have hparity : c.getLsbD 0 = decide (c.toNat % 2 = 1) := Nat.testBit_zero c.toNat
  rw [crcBit, hparity, crcShift]
  by_cases hodd : c.toNat % 2 = 1
  · rw [if_pos (decide_eq_true hodd), if_pos hodd, BitVec.toNat_xor, hhalf]
    rfl
  · rw [if_neg (by simpa using hodd), if_neg hodd, hhalf]

/-- Eight shifts of the register are eight shifts of its number. -/
theorem crcByte_toNat (c : Word) (b : Byte) : (crcByte c b).toNat = crcShift^[8] (c.toNat ^^^ b.toNat) := by
  have hxor : (c ^^^ b.setWidth 16).toNat = c.toNat ^^^ b.toNat := by
    rw [BitVec.toNat_xor, BitVec.toNat_setWidth_of_le (by decide)]
  rw [← hxor]
  simp only [crcByte, crcBit_toNat, Function.iterate_succ_apply, Function.iterate_zero, id_eq]

theorem crc16_toNat (d : Bytes) : (crc16 d).toNat = crcNumber d :=
  (List.foldl_hom BitVec.toNat fun c b => (crcByte_toNat c b).symm).symm

theorem crcNumber_lt (d : Bytes) : crcNumber d < 65536 :=
  crc16_toNat d ▸ (crc16 d).isLt

theorem crc16_eq_ofNat_crcNumber (d : Bytes) : crc16 d = BitVec.ofNat 16 (crcNumber d) := by
  rw [← crc16_toNat, BitVec.ofNat_toNat, BitVec.setWidth_eq]

/-! ### The CRC of a frame that ends with its CRC -/

/-- The low byte of the CRC leaves its high byte in the register, and the high byte clears it (R104). -/
theorem crc16_appendCrc (d : Bytes) : crc16 (appendCrc d) = 0 := by
  rw [appendCrc, crc16_append, List.foldl_cons, crcByte_lo8, List.foldl_cons, crcByte_hi8, List.foldl_nil]

end Sys2Proof

namespace Sys2Proof.Machine

open Sys2Proof.Safety

/-! ### The check of a frame -/

theorem checkFrame_short {b : Bytes} (h : b.length < 2) : checkFrame b = .check false .short := if_pos h

theorem checkFrame_of_le {b : Bytes} (h : 2 ≤ b.length) :
    checkFrame b = if crcHolds b then .check true .clear else .check false .crc := if_neg (Nat.not_lt.mpr h)

theorem checkFrame_mismatch {b : Bytes} (h : 2 ≤ b.length) (hc : crcHolds b = false) :
    checkFrame b = .check false .crc := by
  rw [checkFrame_of_le h, hc]
  rfl

theorem checkFrame_appendCrc (d : Bytes) : checkFrame (appendCrc d) = .check true .clear := by
  rw [checkFrame_of_le (by rw [appendCrc_length]; omega), crcHolds_appendCrc]
  rfl

/-- A match means that the frame had a CRC and that it was the right one. -/
theorem crcHolds_of_checkFrame_match {b : Bytes} {reason : Reason} (h : checkFrame b = .check true reason) :
    2 ≤ b.length ∧ crcHolds b = true := by
  by_cases hlen : b.length < 2
  · rw [checkFrame_short hlen] at h
    cases h
  · refine ⟨Nat.not_lt.mp hlen, ?_⟩
    cases hc : crcHolds b with
    | true => rfl
    | false =>
      rw [checkFrame_mismatch (Nat.not_lt.mp hlen) hc] at h
      cases h

/-! ### The two commands -/

theorem exec_crc16 (d : Bytes) (s : State) : exec (.crc16 d) s = .next (returning .ok (.crc (crc16 d)) s) := rfl

theorem exec_crcchk (b : Bytes) (s : State) : exec (.crcchk b) s = .next (returning .ok (checkFrame b) s) := rfl

theorem exec_crcchk_eq_iff (b : Bytes) (r : Result) (s : State) :
    exec (.crcchk b) s = .next (returning .ok r s) ↔ checkFrame b = r := by
  rw [exec_crcchk, next_inj]
  constructor
  · intro h
    simpa using congrArg State.response h
  · rintro rfl
    rfl

/-- Settles O12: the register's number goes through the pseudocode byte by byte. -/
theorem crc16ReturnsTheAlgorithmsValue : Obligations.Crc16ReturnsTheAlgorithmsValue := by
  intro d s
  rw [exec_crc16, crc16_eq_ofNat_crcNumber]
  exact ⟨rfl, crcNumber_lt d⟩

/-- Settles O14: the CRC is the model's `crc16`, and appended it clears the register. -/
theorem crcOfFrameWithItsCrcIsZero : Obligations.CrcOfFrameWithItsCrcIsZero := by
  intro d s
  refine ⟨crc16 d, exec_crc16 d s, ?_⟩
  rw [exec_crc16, ← appendCrc, crc16_appendCrc]

/-- Settles O15: the three cases of the check, a frame with a right CRC being data followed by its CRC. -/
theorem crcchkMatchesExactlyItsOwnCrc : Obligations.CrcchkMatchesExactlyItsOwnCrc := by
  intro b s
  simp only [exec_crcchk_eq_iff]
  refine ⟨checkFrame_short, ?_, fun hlen hne => checkFrame_mismatch hlen ?_⟩
  · rintro d rfl
    exact checkFrame_appendCrc d
  · rw [← Bool.not_eq_true, crcHolds_iff hlen]
    rintro ⟨d, hd⟩
    exact hne d hd

/-- FF and 03 have the CRCs 00FF and 41FF, which share their low byte: two changed bytes turn the one frame into the
other. -/
theorem set_appendCrc_two_bytes : ((appendCrc [0xFF]).set 0 0x03).set 2 0x41 = appendCrc [0x03] := by decide

/-- Settles O16: one changed byte is detected by `crcHolds_set_eq_false`; the frame FF FF 00, changed in its first and
last byte to 03 FF 41, is accepted again. -/
theorem singleByteChangeFailsCrc : Obligations.SingleByteChangeFailsCrc := by
  simp only [Obligations.SingleByteChangeFailsCrc, exec_crcchk_eq_iff]
  constructor
  · intro b k v _ hmatch hk hv
    obtain ⟨hlen, hc⟩ := crcHolds_of_checkFrame_match hmatch
    exact checkFrame_mismatch (by rwa [List.length_set]) (crcHolds_set_eq_false hlen hc hk hv)
  · refine ⟨appendCrc [0xFF], 0, 2, 0x03, 0x41, by decide, by decide, by decide, by decide, fun _ => ⟨?_, ?_⟩⟩
    · exact checkFrame_appendCrc [0xFF]
    · rw [set_appendCrc_two_bytes]
      exact checkFrame_appendCrc [0x03]

theorem crc16_checkValue : crc16 [0x31, 0x32, 0x33, 0x34, 0x35, 0x36, 0x37, 0x38, 0x39] = 0x4B37 := by
  decide +kernel

/-- Settles O13: the register after the nine bytes. -/
theorem crc16CheckValue : Obligations.Crc16CheckValue := by
  intro s
  rw [exec_crc16, crc16_checkValue]

end Sys2Proof.Machine

/-! SUPPORT. The encode commands on every request (spec/41_marshal R111 to R119), and the request parser on the frames
they build (spec/42_parse R140, R141). -/

namespace Sys2Proof.Machine

open Sys2Proof.Safety

/-! ### The request parser -/

/-- The CRC is checked before the length above eight and before the function code (42_parse R140). -/
theorem parseRequest_of_crcHolds_eq_false {b : Bytes} (hlen : 8 ≤ b.length) (hc : crcHolds b = false) :
    parseRequest b = .invalidFrame .crc := by
  rw [parseRequest, if_neg (Nat.not_lt.mpr hlen), if_pos hc]

/-- A frame of eight bytes with a right CRC and a read function code gives its fields as they are on the wire. -/
theorem parseRequest_of_requestsFc {b : Bytes} {rtype : Byte} (hlen : b.length = 8) (hc : crcHolds b = true)
    (hfc : RequestsFc rtype (byteAt b 1)) :
    parseRequest b = .validRequest (byteAt b 0) (byteAt b 1) rtype (be16 (byteAt b 2) (byteAt b 3))
      (be16 (byteAt b 4) (byteAt b 5)) := by
  rw [parseRequest, if_neg (Nat.not_lt.mpr hlen.ge), if_neg (by rw [hc]; decide), if_neg (not_not.mpr hlen)]
  rcases hfc with ⟨rfl, hfc⟩ | ⟨rfl, hfc⟩ <;> rw [hfc] <;> rfl

theorem parseRequest_requestFrame {rtype fc : Byte} (hfc : RequestsFc rtype fc) (unit : Byte) (addr count : Word) :
    parseRequest (appendCrc [unit, fc, hi8 addr, lo8 addr, hi8 count, lo8 count]) =
      .validRequest unit fc rtype addr count := by
  calc
    _ = .validRequest unit fc rtype (be16 (hi8 addr) (lo8 addr)) (be16 (hi8 count) (lo8 count)) :=
      parseRequest_of_requestsFc (appendCrc_length _) (crcHolds_appendCrc _) hfc
    _ = _ := by rw [be16_hi8_lo8, be16_hi8_lo8]

/-- A request frame with one byte changed fails its CRC check (R105). -/
theorem parseRequest_set_of_ne {b : Bytes} {k : Nat} {v : Byte} (hlen : 8 ≤ b.length) (hc : crcHolds b = true)
    (hk : k < b.length) (hv : v ≠ byteAt b k) : parseRequest (b.set k v) = .invalidFrame .crc :=
  parseRequest_of_crcHolds_eq_false (by rwa [List.length_set])
    (crcHolds_set_eq_false (Nat.le_trans (by decide) hlen) hc hk hv)

theorem exec_prsrtuq (b : Bytes) (s : State) :
    exec (.prsrtuq b) s = .next (returning .ok (.request (parseRequest b)) s) := rfl

/-! ### Refused requests -/

theorem validate_illegalOperand {rtype : Byte} (h : ¬ (rtype = 0 ∨ rtype = 1)) (p : Params) (unit : Byte)
    (addr count : Word) : validate p unit rtype addr count = some .illegalOperand := by
  rw [← rtypeLegal_iff, Bool.not_eq_true] at h
  rw [validate, if_pos h]

theorem validate_illegalUnit {unit rtype : Byte} (hr : rtype = 0 ∨ rtype = 1)
    (hu : unit.toNat = 0 ∨ 247 < unit.toNat) (p : Params) (addr count : Word) :
    validate p unit rtype addr count = some .illegalUnit := by
  rw [← rtypeLegal_iff] at hr
  rw [validate, if_neg (by rw [hr]; decide), if_pos (by omega)]

theorem validate_illegalCount {p : Params} {unit rtype : Byte} {count : Word} (hr : rtype = 0 ∨ rtype = 1)
    (hlow : 1 ≤ unit.toNat) (hhigh : unit.toNat ≤ 247) (hcount : count.toNat = 0 ∨ p.maxCount < count.toNat)
    (addr : Word) : validate p unit rtype addr count = some .illegalCount := by
  rw [← rtypeLegal_iff] at hr
  rw [validate, if_neg (by rw [hr]; decide), if_neg (by omega), if_pos (by omega)]

/-- Both encode commands answer a failed check alike: its status, no result, no state written (41_marshal R116). -/
theorem exec_encode_refused {unit rtype : Byte} {addr count : Word} {status : Status} {i : Instr}
    (hi : i = .encrtu unit rtype addr count ∨ i = .enctcp unit rtype addr count)
    (h : validate Config.params unit rtype addr count = some status) (s : State) :
    exec i s = .next (returning status .none s) := by
  rw [← fail_eq]
  rcases hi with rfl | rfl
  · rw [exec, execEncrtu, encodeRtuWith, h]
  · rw [exec, execEnctcp, encodeTcpWith, h]

/-! ### The identifier in a TCP frame -/

/-- The identifier stands in bytes 0 and 1 of a TCP frame and nowhere else (30_encoding R68). -/
theorem tcpFrame_drop_two (tid tid' : Word) (unit : Byte) (pdu : Bytes) :
    (tcpFrame tid unit pdu).drop 2 = (tcpFrame tid' unit pdu).drop 2 := rfl

theorem tcpFrame_tid_injective (unit : Byte) (pdu : Bytes) : Function.Injective (tcpFrame · unit pdu) := by
  intro tid tid' h
  have hbytes := congrArg (List.take 2) h
  rw [tcpFrame_take_two, tcpFrame_take_two, List.cons.injEq, List.cons.injEq] at hbytes
  obtain ⟨hhi, hlo, -⟩ := hbytes
  rw [← be16_hi8_lo8 tid, hhi, hlo, be16_hi8_lo8]

theorem advanceTid_tid_ne (s : State) : (advanceTid s).tid ≠ s.tid := by
  simp

theorem advanceTid_tid_toNat (s : State) : (advanceTid s).tid.toNat = (s.tid.toNat + 1) % 65536 :=
  BitVec.toNat_add s.tid 1

/-! ### The statements about requests -/

/-- Settles O36: the frame carries its own CRC, so it parses to its fields, and one changed byte breaks the CRC. -/
theorem requestRoundTrip : Obligations.RequestRoundTrip := by
  intro unit rtype fc addr count s hlegal hfc
  refine ⟨_, encodeRtuWith_bytes hlegal hfc addr s, ?_, fun k b hk hb => ?_⟩
  · rw [exec_prsrtuq, parseRequest_requestFrame hfc]
  · rw [exec_prsrtuq, parseRequest_set_of_ne (appendCrc_length [unit, fc, _, _, _, _]).ge (crcHolds_appendCrc _) hk hb]

/-- Settles O17: `appendCrc` of the six bytes, written out. -/
theorem encrtuBuildsFrame : Obligations.EncrtuBuildsFrame :=
  fun _ _ _ addr _ s hlegal hfc => encodeRtuWith_bytes hlegal hfc addr s

/-- Settles O18: the twelve bytes of a TCP request. -/
theorem enctcpBuildsFrame : Obligations.EnctcpBuildsFrame :=
  fun _ _ _ addr _ s hlegal hfc => encodeTcpWith_bytes hlegal hfc addr s

/-- Settles O19: the state ENCTCP leaves is the advanced one. -/
theorem tidIncrementsAndWraps : Obligations.TidIncrementsAndWraps := by
  intro unit rtype addr count s hlegal
  refine ⟨_, _, encodeTcpWith_legal hlegal addr s, rfl, advanceTid_tid_toNat s, fun hmax => ?_⟩
  rw [returning_tid, advanceTid_tid, hmax]
  decide

/-- Settles O20: in each clause the earlier checks pass and the clause's own check fails. -/
theorem encodeRefusesInOrder : Obligations.EncodeRefusesInOrder := by
  intro unit rtype addr count s i hi
  refine ⟨fun h0 h1 => ?_, fun hr hu => ?_, fun hr hlow hhigh hcount => ?_⟩
  · exact exec_encode_refused hi (validate_illegalOperand (not_or.mpr ⟨h0, h1⟩) _ unit addr count) s
  · exact exec_encode_refused hi (validate_illegalUnit hr hu _ addr count) s
  · exact exec_encode_refused hi (validate_illegalCount hr hlow hhigh hcount addr) s

/-- Settles O21: the second ENCTCP runs at the advanced TID, and the frame's other bytes do not depend on TID. -/
theorem retriedRequestFrames : Obligations.RetriedRequestFrames := by
  intro unit rtype addr count s s' hlegal
  constructor
  · refine ⟨_, _, _, _, encodeTcpWith_legal hlegal addr s, encodeTcpWith_legal hlegal addr _, rfl, rfl, fun hframes => ?_,
      tcpFrame_drop_two _ _ _ _⟩
    exact advanceTid_tid_ne s (tcpFrame_tid_injective unit _ hframes).symm
  · exact ⟨_, _, _, encodeRtuWith_legal hlegal addr s, encodeRtuWith_legal hlegal addr s', rfl, rfl⟩

end Sys2Proof.Machine

/-! SUPPORT. The parsers read backwards (spec/42_parse R131, R134, R135, R140): which check a rejected frame failed
first, and which frame an accepted response was. An accepted frame is the envelope around a PDU in either framing, so
what the PDU was is said once for both. -/

namespace Sys2Proof

theorem crcHolds_eq_false_iff {b : Bytes} (h : 2 ≤ b.length) : crcHolds b = false ↔ ∀ d, b ≠ appendCrc d := by
  rw [← Bool.not_eq_true, crcHolds_iff h, not_exists]

end Sys2Proof

namespace Sys2Proof.Machine

open Sys2Proof.Safety

/-! ### What the decode commands answer -/

@[simp] theorem returning_inj {status status' : Status} {r r' : Result} {s : State} :
    returning status r s = returning status' r' s ↔ status = status' ∧ r = r' := by
  constructor
  · intro h
    simpa using congrArg State.response h
  · rintro ⟨rfl, rfl⟩
    rfl

/-- DECRTU ends with a parse result exactly when the entries are legal, and it is its parser's. -/
theorem exec_decrtu_parse_iff (b : Bytes) (outstanding : List Entry) (r : ParseResult) (s : State) :
    exec (.decrtu b outstanding) s = .next (returning .ok (.parse r) s) ↔
      RtypesLegal outstanding ∧ parseRtu Config.params b outstanding = r := by
  rw [exec, execDecrtu]
  by_cases hr : RtypesLegal outstanding
  · simp [decodeRtuWith_legal, hr]
  · simp [decodeRtuWith_illegal, hr]

/-- DECTCP ends with a parse result exactly when the entries are legal, and it is its parser's. -/
theorem exec_dectcp_parse_iff (b : Bytes) (outstanding : List Entry) (r : ParseResult) (s : State) :
    exec (.dectcp b outstanding) s = .next (returning .ok (.parse r) s) ↔
      RtypesLegal outstanding ∧ parseTcp Config.params b outstanding = r := by
  rw [exec, execDectcp]
  by_cases hr : RtypesLegal outstanding
  · simp [decodeTcpWith_legal, hr]
  · simp [decodeTcpWith_illegal, hr]

/-- Settles O24: the check of the entries comes before the frame is looked at. -/
theorem decodeCommandsAreTotal : Obligations.DecodeCommandsAreTotal := by
  rintro b outstanding s i (rfl | rfl)
  · exact ⟨fun hr => ⟨_, decodeRtuWith_legal _ b hr s⟩, fun hr => decodeRtuWith_illegal _ b hr s⟩
  · exact ⟨fun hr => ⟨_, decodeTcpWith_legal _ b hr s⟩, fun hr => decodeTcpWith_illegal _ b hr s⟩

/-! ### The first failing check of a PDU -/

section

variable {p : Params} {m : Matched} {e : Entry} {b : Bytes} {i n : Nat} {f : Byte} (hfc : RequestsFc e.rtype f)
include hfc

theorem parsePdu_fcMismatch (hread : m.fc ≠ f) (hexception : m.fc ≠ exceptionCode f) :
    parsePdu p m e b i n = .invalidFrame .fcMismatch := by
  simp only [parsePdu, functionCode_of_requestsFc hfc]
  rw [if_neg hexception, if_neg hread]

theorem parsePdu_exceptionLength (hexception : m.fc = exceptionCode f) (hlength : b.length ≠ n) :
    parsePdu p m e b i n = .invalidFrame .length := by
  simp only [parsePdu, functionCode_of_requestsFc hfc]
  rw [if_pos hexception, if_pos hlength]

/-- A frame with the request's own function code goes to the checks of a success response. -/
theorem parsePdu_of_fc_eq (hread : m.fc = f) :
    parsePdu p m e b i n =
      if (byteAt b (i + 1)).toNat ≠ 2 * e.count.toNat then .invalidFrame .byteCount
      else if b.length ≠ n + (byteAt b (i + 1)).toNat then .invalidFrame .length
      else .success m (slice b (i + 2) (byteAt b (i + 1)).toNat) := by
  have hne : f ≠ exceptionCode f := functionCode_of_requestsFc hfc ▸ (exceptionCode_ne e.rtype).symm
  simp only [parsePdu, functionCode_of_requestsFc hfc]
  rw [if_neg (hread ▸ hne), if_pos hread]

theorem parsePdu_byteCount (hread : m.fc = f) (hcount : (byteAt b (i + 1)).toNat ≠ 2 * e.count.toNat) :
    parsePdu p m e b i n = .invalidFrame .byteCount := by
  rw [parsePdu_of_fc_eq hfc hread, if_pos hcount]

theorem parsePdu_responseLength (hread : m.fc = f) (hcount : (byteAt b (i + 1)).toNat = 2 * e.count.toNat)
    (hlength : b.length ≠ n + (byteAt b (i + 1)).toNat) : parsePdu p m e b i n = .invalidFrame .length := by
  rw [parsePdu_of_fc_eq hfc hread, if_neg (not_not.mpr hcount), if_pos hlength]

end

/-- Settles O31: each clause's frame passes the checks before its own. -/
theorem decrtuReasonsInOrder : Obligations.DecrtuReasonsInOrder := by
  intro b outstanding s hr
  simp only [exec_decrtu_parse_iff, hr, true_and]
  refine ⟨parseRtu_short, fun h5 hd => ?_, fun h5 hd => ?_⟩
  · exact parseRtu_crc h5 ((crcHolds_eq_false_iff (by omega)).mpr hd)
  · have hc : crcHolds b = true := (crcHolds_iff (by omega)).mpr hd
    refine ⟨parseRtu_noMatch h5 hc, parseRtu_ambiguous h5 hc, fun k e f hm hfc => ?_⟩
    rw [parseRtu_match h5 hc hm]
    refine ⟨fun hread hexception => ?_, fun hexception hlength => ?_, fun hread hcount => ?_,
      fun hread hcount hlength => ?_⟩
    · exact parsePdu_fcMismatch hfc hread hexception
    · exact parsePdu_exceptionLength hfc hexception hlength
    · exact parsePdu_byteCount hfc hread hcount
    · exact parsePdu_responseLength hfc hread hcount hlength

/-- Settles O32: each clause's frame passes the checks before its own. -/
theorem dectcpReasonsInOrder : Obligations.DectcpReasonsInOrder := by
  rintro b outstanding s _ hr rfl
  simp only [exec_dectcp_parse_iff, hr, true_and]
  refine ⟨parseTcp_short, fun h9 => ⟨parseTcp_noMatch h9, parseTcp_ambiguous h9, fun k e f hm hfc => ?_⟩⟩
  rw [parseTcp_match h9 hm]
  refine ⟨fun hprotocol => if_pos hprotocol, fun hprotocol => ?_⟩
  rw [if_neg (not_not.mpr hprotocol)]
  refine ⟨fun hfield => if_pos hfield, fun hfield => ?_⟩
  rw [if_neg (not_not.mpr hfield)]
  refine ⟨fun hread hexception => ?_, fun hexception hlength => ?_, fun hread hcount => ?_,
    fun hread hcount hlength => ?_⟩
  · exact parsePdu_fcMismatch hfc hread hexception
  · exact parsePdu_exceptionLength hfc hexception hlength
  · exact parsePdu_byteCount hfc hread hcount
  · exact parsePdu_responseLength hfc hread hcount hlength

/-! ### The frame that an accepted response was -/

/-- A frame long enough for DECRTU that ends with its CRC is an RTU envelope around a PDU of two or more bytes. -/
theorem exists_eq_rtuFrame {b : Bytes} (h : 5 ≤ b.length) (hc : crcHolds b = true) :
    ∃ unit fc arg body, b = rtuFrame unit (fc :: arg :: body) := by
  obtain ⟨d, rfl⟩ := (crcHolds_iff (by omega)).mp hc
  rw [appendCrc_length] at h
  match d with
  | unit :: fc :: arg :: body => exact ⟨unit, fc, arg, body, rfl⟩

/-- A frame long enough for DECTCP, with protocol identifier 0 and its own length in the length field, is a TCP
envelope around a PDU of two or more bytes. -/
theorem exists_eq_tcpFrame {b : Bytes} (h : 9 ≤ b.length) (hprotocol : be16 (byteAt b 2) (byteAt b 3) = 0)
    (hfield : (be16 (byteAt b 4) (byteAt b 5)).toNat = b.length - 6) :
    ∃ tid unit fc arg body, b = tcpFrame tid unit (fc :: arg :: body) := by
  match b with
  | t1 :: t0 :: p1 :: p0 :: l1 :: l0 :: unit :: fc :: arg :: body =>
    obtain ⟨hp1, hp0⟩ : p1 = 0 ∧ p0 = 0 := be16_injective hprotocol
    have hlength : BitVec.ofNat 16 (3 + body.length) = be16 l1 l0 := by
      have hbody : 3 + body.length = (be16 l1 l0).toNat :=
        (Nat.add_comm 3 body.length).trans hfield.symm
      rw [hbody, BitVec.ofNat_toNat, BitVec.setWidth_eq]
    refine ⟨be16 t1 t0, unit, fc, arg, body, ?_⟩
    rw [tcpFrame_cons, hlength, hi8_be16, lo8_be16, hi8_be16, lo8_be16, hp1, hp0]
    rfl

section

variable {p : Params} {b : Bytes} {outstanding : List Entry} {r : ParseResult}

/-- A frame that DECRTU's parser accepts is an RTU frame, its PDU accepted for the one entry of its unit. -/
theorem parseRtu_accepts (h : parseRtu p b outstanding = r) (hr : ∀ reason, r ≠ .invalidFrame reason) :
    ∃ unit fc arg body k e, b = rtuFrame unit (fc :: arg :: body) ∧
      OnlyMatch (EnvelopeMatches (.rtu unit)) outstanding k e ∧
      parsePdu p (matchedIn (.rtu unit) k fc) e (envelopeFrame (.rtu unit) (fc :: arg :: body)) 1 5 = r := by
  rcases parseRtu_cases p b outstanding with ⟨reason, -, hreason⟩ | ⟨h5, hc, k, e, hm, hpdu⟩
  · exact absurd (h.symm.trans hreason) (hr reason)
  · obtain ⟨unit, fc, arg, body, rfl⟩ := exists_eq_rtuFrame h5 hc
    exact ⟨unit, fc, arg, body, k, e, rfl, hm, hpdu.symm.trans h⟩

/-- A frame that DECTCP's parser accepts is a TCP frame, its PDU accepted for the one entry of its identifier. -/
theorem parseTcp_accepts (h : parseTcp p b outstanding = r) (hr : ∀ reason, r ≠ .invalidFrame reason) :
    ∃ tid unit fc arg body k e, b = tcpFrame tid unit (fc :: arg :: body) ∧
      OnlyMatch (EnvelopeMatches (.tcp tid unit)) outstanding k e ∧
      parsePdu p (matchedIn (.tcp tid unit) k fc) e (envelopeFrame (.tcp tid unit) (fc :: arg :: body)) 7 9 = r := by
  rcases parseTcp_cases p b outstanding with ⟨reason, -, hreason⟩ | ⟨h9, hprotocol, hfield, k, e, hm, hpdu⟩
  · exact absurd (h.symm.trans hreason) (hr reason)
  · obtain ⟨tid, unit, fc, arg, body, rfl⟩ := exists_eq_tcpFrame h9 hprotocol hfield
    have htid : be16 (byteAt (tcpFrame tid unit (fc :: arg :: body)) 0)
        (byteAt (tcpFrame tid unit (fc :: arg :: body)) 1) = tid := be16_hi8_lo8 tid
    rw [htid] at hm hpdu
    exact ⟨tid, unit, fc, arg, body, k, e, rfl, hm, hpdu.symm.trans h⟩

end

theorem classify_ne_success (p : Params) (m m' : Matched) (code : Byte) (raw : Bytes) :
    classify p m code ≠ .success m' raw := by
  rw [classify_eq]
  split <;> exact ParseResult.noConfusion

/-- An error is the classified code, and its class is the code's (R133). -/
theorem classify_eq_error {p : Params} {m m' : Matched} {code code' : Byte} {r : ParseResult}
    (hr : r = .deviceError m' code' ∨ r = .gatewayError m' code') (h : classify p m code = r) :
    m' = m ∧ code' = code ∧ (r = .gatewayError m' code' ↔ code' ∈ p.gatewayCodes) := by
  rw [classify_eq] at h
  by_cases hmem : code ∈ p.gatewayCodes
  · rw [if_pos hmem] at h
    rcases hr with rfl | rfl <;> cases h
    simp [hmem]
  · rw [if_neg hmem] at h
    rcases hr with rfl | rfl <;> cases h
    simp [hmem]

section

variable {p : Params} {m m' : Matched} {e : Entry} {envelope : Envelope} {fc arg : Byte} {body : Bytes}

/-- A PDU reported as a success is the success response with the reported data, as much as the entry asked for. -/
theorem parsePdu_eq_success {raw : Bytes}
    (h : parsePdu p m e (envelopeFrame envelope (fc :: arg :: body)) (pduIndex envelope) (exceptionLength envelope) =
      .success m' raw) :
    m' = m ∧ m.fc = functionCode e.rtype ∧ raw.length = 2 * e.count.toNat ∧ raw.length ≤ 255 ∧
      fc :: arg :: body = responsePdu fc raw := by
  rcases parsePdu_cases p m e (envelopeFrame envelope (fc :: arg :: body)) (pduIndex envelope)
    (exceptionLength envelope) with ⟨-, -, hp⟩ | ⟨-, -, hp⟩ | ⟨-, -, hp⟩ | ⟨-, -, -, hp⟩ |
    ⟨hfc, hcount, hlength, hp⟩ | ⟨-, -, hp⟩ <;> rw [hp] at h
  case inr.inl => exact absurd h (classify_ne_success _ _ _ _ _)
  case inr.inr.inr.inr.inl =>
    rw [byteAt_envelopeFrame] at hcount hlength h
    rw [envelopeFrame_length, Nat.add_left_cancel_iff] at hlength
    rw [← hlength, slice_envelopeFrame, ParseResult.success.injEq] at h
    obtain ⟨rfl, rfl⟩ := h
    refine ⟨rfl, hfc, hlength.trans hcount, by have := arg.isLt; omega, ?_⟩
    rw [responsePdu, hlength, BitVec.ofNat_toNat, BitVec.setWidth_eq]
  all_goals cases h

/-- A PDU reported as an error is the exception response to the entry's request with the reported code. -/
theorem parsePdu_eq_error {code : Byte} {r : ParseResult} (hr : r = .deviceError m' code ∨ r = .gatewayError m' code)
    (h : parsePdu p m e (envelopeFrame envelope (fc :: arg :: body)) (pduIndex envelope) (exceptionLength envelope) =
      r) :
    m' = m ∧ m.fc = exceptionCode (functionCode e.rtype) ∧ fc :: arg :: body = [fc, code] ∧
      (r = .gatewayError m' code ↔ code ∈ p.gatewayCodes) := by
  rcases parsePdu_cases p m e (envelopeFrame envelope (fc :: arg :: body)) (pduIndex envelope)
    (exceptionLength envelope) with ⟨-, -, hp⟩ | ⟨hfc, hlength, hp⟩ | ⟨-, -, hp⟩ | ⟨-, -, -, hp⟩ |
    ⟨-, -, -, hp⟩ | ⟨-, -, hp⟩ <;> rw [hp] at h
  case inr.inl =>
    rw [byteAt_envelopeFrame] at h
    obtain ⟨hm, rfl, hclass⟩ := classify_eq_error hr h
    rw [envelopeFrame_length, Nat.add_eq_left, List.length_eq_zero_iff] at hlength
    exact ⟨hm, hfc, by rw [hlength], hclass⟩
  all_goals rcases hr with rfl | rfl <;> cases h

end

/-- Settles O26: an accepted frame is the RTU envelope around the success PDU. -/
theorem decrtuSuccessIsTheResponse : Obligations.DecrtuSuccessIsTheResponse := by
  intro frame outstanding m raw s h
  obtain ⟨hr, h⟩ := (exec_decrtu_parse_iff _ _ _ _).mp h
  obtain ⟨unit, fc, arg, body, k, e, rfl, hm, hpdu⟩ := parseRtu_accepts h (by simp)
  obtain ⟨rfl, hfc, hcount, hraw, hbytes⟩ := parsePdu_eq_success (envelope := .rtu unit) hpdu
  rw [hbytes]
  exact ⟨e, hm, hfc ▸ requestsFc_functionCode (hr e (onlyMatch_mem hm)), rfl, hcount, hraw, rfl⟩

/-- Settles O28: an accepted frame is the TCP envelope around the success PDU. -/
theorem dectcpSuccessIsTheResponse : Obligations.DectcpSuccessIsTheResponse := by
  intro frame outstanding m raw s h
  obtain ⟨hr, h⟩ := (exec_dectcp_parse_iff _ _ _ _).mp h
  obtain ⟨tid, unit, fc, arg, body, k, e, rfl, hm, hpdu⟩ := parseTcp_accepts h (by simp)
  obtain ⟨rfl, hfc, hcount, hraw, hbytes⟩ := parsePdu_eq_success (envelope := .tcp tid unit) hpdu
  rw [hbytes, responsePdu, tcpFrame_cons]
  exact ⟨e, tid, hm, hfc ▸ requestsFc_functionCode (hr e (onlyMatch_mem hm)), rfl, hcount, hraw, rfl⟩

/-- Settles O30: a frame reported as an error is the RTU envelope around the exception PDU. -/
theorem decrtuErrorIsTheException : Obligations.DecrtuErrorIsTheException := by
  intro frame outstanding m code r s herror h
  obtain ⟨hr, h⟩ := (exec_decrtu_parse_iff _ _ _ _).mp h
  have haccepted : ∀ reason, r ≠ .invalidFrame reason := by
    rcases herror with rfl | rfl <;> simp
  obtain ⟨unit, fc, arg, body, k, e, rfl, hm, hpdu⟩ := parseRtu_accepts h haccepted
  obtain ⟨rfl, hfc, hbytes, hclass⟩ := parsePdu_eq_error (envelope := .rtu unit) herror hpdu
  obtain rfl : fc = exceptionCode (functionCode e.rtype) := hfc
  rw [hbytes]
  exact ⟨⟨e, functionCode e.rtype, hm, requestsFc_functionCode (hr e (onlyMatch_mem hm)), rfl, rfl, rfl⟩, hclass⟩

/-! ### The first failing check of a request frame -/

theorem parseRequest_short {b : Bytes} (h : b.length < 8) : parseRequest b = .invalidFrame .short := by
  rw [parseRequest, if_pos h]

theorem parseRequest_long {b : Bytes} (h : 8 < b.length) (hc : crcHolds b = true) :
    parseRequest b = .invalidFrame .length := by
  rw [parseRequest, if_neg h.not_gt, if_neg (by rw [hc]; decide), if_pos h.ne']

theorem parseRequest_fcMismatch {b : Bytes} (h : b.length = 8) (hc : crcHolds b = true) (h3 : byteAt b 1 ≠ 0x03)
    (h4 : byteAt b 1 ≠ 0x04) : parseRequest b = .invalidFrame .fcMismatch := by
  rw [parseRequest, if_neg (Nat.not_lt.mpr h.ge), if_neg (by rw [hc]; decide), if_neg (not_not.mpr h),
    if_pos ⟨h3, h4⟩]

/-- Settles O35: a request frame gives its fields, and each other clause's frame passes the checks before its own. -/
theorem prsrtuqReadsRequestFrames : Obligations.PrsrtuqReadsRequestFrames := by
  intro s
  simp only [exec_prsrtuq, next_inj, returning_inj, Result.request.injEq, true_and]
  refine ⟨fun unit fc rtype addr count hfc => parseRequest_requestFrame hfc unit addr count, fun b =>
    ⟨parseRequest_short, fun hlen hd => ?_, fun hlen hd => ?_, fun hlen hd => ?_⟩⟩
  · exact parseRequest_of_crcHolds_eq_false hlen ((crcHolds_eq_false_iff (by omega)).mpr hd)
  · exact parseRequest_long hlen ((crcHolds_iff (by omega)).mpr hd)
  · exact parseRequest_fcMismatch hlen ((crcHolds_iff (by omega)).mpr hd)

end Sys2Proof.Machine

/-! SUPPORT. VDEC and its seven formats on every byte sequence (spec/43_value_decode R160 to R175): what the row of one
format answers, what each format reads of the bytes, and the IEEE 754 data of R168 and R169 on plain numbers. -/

namespace Sys2Proof.Machine

open Sys2Proof.Safety

/-! ### The rows of one format, and VDEC of a mask -/

/-- The row of a format completes with that format's entry and writes no state (R161, R174). -/
theorem exec_formatRow (f : Format) (raw : Bytes) (s : State) :
    exec (formatRow f raw) s = .next (returning .ok (.formats [(f, decodeFormat f raw)]) s) := by
  cases f <;> exact decodeOne_eq _ raw s

theorem exec_formatRow_of_eq {f : Format} {raw : Bytes} {r : FormatResult} (h : decodeFormat f raw = r) (s : State) :
    exec (formatRow f raw) s = .next (returning .ok (.formats [(f, r)]) s) :=
  h ▸ exec_formatRow f raw s

/-- Two answers of a format's row agree exactly when the two values do. -/
theorem exec_formatRow_inj {f : Format} {raw raw' : Bytes} {s : State} :
    exec (formatRow f raw) s = exec (formatRow f raw') s ↔ decodeFormat f raw = decodeFormat f raw' := by
  simp [exec_formatRow]

theorem selectedFormats_sublist (fmask : Byte) : (selectedFormats fmask).Sublist allFormats := List.filter_sublist

/-- Settles O38: the entries are those of the selected formats, a sublist of all formats. -/
theorem vdecDecodesSelectedFormats : Obligations.VdecDecodesSelectedFormats := by
  intro raw fmask s
  refine ⟨fun h => decodeValues_refused h raw s, fun h => ⟨_, decodeValues_ok h raw s, ?_⟩⟩
  have hfst : ((selectedFormats fmask).map fun f => (f, decodeFormat f raw)).map Prod.fst = selectedFormats fmask :=
    (List.map_map ..).trans (List.map_id _)
  rw [hfst]
  refine ⟨selectedFormats_sublist fmask, mem_selectedFormats fmask, fun f r hmem => ?_⟩
  obtain ⟨g, -, hg⟩ := List.mem_map.mp hmem
  cases hg
  exact exec_formatRow f raw s

/-- Settles O47: VDEC is state-independent. -/
theorem vdecIsPure : Obligations.VdecIsPure := by
  intro raw fmask s s'
  obtain ⟨status, r, hnext⟩ := stateIndependent_decodeValues raw fmask
  exact ⟨⟨status, r⟩, hnext s, hnext s'⟩

/-! ### The numeric formats -/

theorem sext16_be16 (hi lo : Byte) : sext16 (be16 hi lo) = twosComplement 16 (hi.toNat * 256 + lo.toNat) := by
  rw [sext16, toInt_eq_twosComplement (by decide), be16_toNat]

theorem sext32_be32 (b0 b1 b2 b3 : Byte) :
    sext32 (be32 b0 b1 b2 b3) =
      twosComplement 32 (b0.toNat * 2 ^ 24 + b1.toNat * 2 ^ 16 + b2.toNat * 2 ^ 8 + b3.toNat) := by
  rw [sext32, toInt_eq_twosComplement (by decide), be32_toNat]

theorem be16_eq_ofNat (hi lo : Byte) : be16 hi lo = BitVec.ofNat 16 (hi.toNat * 256 + lo.toNat) := by
  rw [← be16_toNat, BitVec.ofNat_toNat, BitVec.setWidth_eq]

theorem be32_eq_ofNat (b0 b1 b2 b3 : Byte) :
    be32 b0 b1 b2 b3 =
      BitVec.ofNat 32 (b0.toNat * 2 ^ 24 + b1.toNat * 2 ^ 16 + b2.toNat * 2 ^ 8 + b3.toNat) := by
  rw [← be32_toNat, BitVec.ofNat_toNat, BitVec.setWidth_eq]

/-- The formats with a window of two bytes lack data below it. -/
theorem decode_insufficientData_of_length_lt_two {raw : Bytes} (h : raw.length < 2) :
    decodeFormat .int16 raw = .insufficientData ∧ decodeFormat .float16 raw = .insufficientData :=
  match raw, h with
  | [], _ | [_], _ => ⟨rfl, rfl⟩
  | _ :: _ :: _, h => absurd h (by simp)

/-- The formats with a window of four bytes lack data below it. -/
theorem decode_insufficientData_of_length_lt_four {raw : Bytes} (h : raw.length < 4) :
    decodeFormat .int32be raw = .insufficientData ∧ decodeFormat .int32ws raw = .insufficientData ∧
      decodeFormat .float32 raw = .insufficientData :=
  match raw, h with
  | [], _ | [_], _ | [_, _], _ | [_, _, _], _ => ⟨rfl, rfl, rfl⟩
  | _ :: _ :: _ :: _ :: _, h => absurd h (by simp)

/-- Settles O39: each window is a big-endian word read as two's complement, and shorter sequences lack data. -/
theorem integerFormats : Obligations.IntegerFormats := by
  intro r0 r1 r2 r3 tail raw s
  simp only [← sext16_be16, ← sext32_be32]
  refine ⟨exec_formatRow .int16 _ s, exec_formatRow .int32be _ s, exec_formatRow .int32ws _ s, fun h => ?_, fun h => ?_⟩
  · obtain ⟨hint16, -⟩ := decode_insufficientData_of_length_lt_two h
    exact exec_formatRow_of_eq hint16 s
  · obtain ⟨hint32be, hint32ws, -⟩ := decode_insufficientData_of_length_lt_four h
    exact ⟨exec_formatRow_of_eq hint32be s, exec_formatRow_of_eq hint32ws s⟩

/-- Settles O40: each window is kept as a big-endian word, and shorter sequences lack data. -/
theorem floatFormats : Obligations.FloatFormats := by
  intro r0 r1 r2 r3 tail raw s
  simp only [← be16_eq_ofNat, ← be32_eq_ofNat]
  refine ⟨exec_formatRow .float16 _ s, exec_formatRow .float32 _ s, fun h => ?_, fun h => ?_⟩
  · obtain ⟨-, hfloat16⟩ := decode_insufficientData_of_length_lt_two h
    exact exec_formatRow_of_eq hfloat16 s
  · obtain ⟨-, -, hfloat32⟩ := decode_insufficientData_of_length_lt_four h
    exact exec_formatRow_of_eq hfloat32 s

/-- VDEC with INT32BE and INT32WS selected. -/
theorem exec_vdec_int32 (raw : Bytes) (s : State) :
    exec (.vdec raw 0x06) s =
      .next (returning .ok (.formats [(.int32be, decodeInt32be raw), (.int32ws, decodeInt32ws raw)]) s) := by
  have hselected : selectedFormats 0x06 = [.int32be, .int32ws] := by decide
  have h := decodeValues_ok (fmask := 0x06) (by decide) raw s
  rw [hselected] at h
  exact h

/-- Settles O48: each of the two formats reads the exchanged registers as the other reads the original. -/
theorem wordSwapExchangesRegisters : Obligations.WordSwapExchangesRegisters :=
  fun r0 r1 r2 r3 _ s =>
    ⟨sext32 (be32 r2 r3 r0 r1), sext32 (be32 r0 r1 r2 r3), exec_vdec_int32 _ s, exec_vdec_int32 _ s⟩

/-! ### HEX -/

theorem decodeHex_of_ne_nil {raw : Bytes} (h : raw ≠ []) :
    decodeFormat .hex raw = .value (.hex (raw.flatMap hexByte)) := by
  obtain ⟨b, r, rfl⟩ := List.exists_cons_of_ne_nil h
  rfl

/-- Byte `k` of the sequence gives digits `2k` and `2k + 1` (R171). -/
theorem hexText_getElem? {raw : Bytes} {k : Nat} (hk : k < raw.length) :
    (raw.flatMap hexByte)[2 * k]? = hexDigits[(byteAt raw k).toNat / 16]? ∧
      (raw.flatMap hexByte)[2 * k + 1]? = hexDigits[(byteAt raw k).toNat % 16]? := by
  induction raw generalizing k with
  | nil => cases hk
  | cons b r ih =>
    cases k with
    | zero => exact hexByte_getElem? b
    | succ k => exact ih (Nat.lt_of_succ_lt_succ hk)

theorem hexText_injective : Function.Injective fun raw : Bytes => raw.flatMap hexByte := by
  intro raw raw' h
  induction raw generalizing raw' with
  | nil =>
    cases raw' with
    | nil => rfl
    | cons b' r' => cases h
  | cons b r ih =>
    cases raw' with
    | nil => cases h
    | cons b' r' =>
      obtain ⟨hbyte, hrest⟩ := List.append_inj (s₁ := hexByte b) (s₂ := hexByte b') h rfl
      rw [hexByte_injective hbyte, ih hrest]

theorem decodeHex_injective {raw raw' : Bytes} (h : decodeFormat .hex raw = decodeFormat .hex raw') : raw = raw' := by
  cases raw with
  | nil =>
    cases raw' with
    | nil => rfl
    | cons b' r' => cases h
  | cons b r =>
    cases raw' with
    | nil => cases h
    | cons b' r' =>
      rw [decodeHex_of_ne_nil (by simp), decodeHex_of_ne_nil (by simp)] at h
      injection h with hvalue
      injection hvalue with hdigits
      exact hexText_injective hdigits

/-- Settles O44: the digits of the bytes, in order. -/
theorem hexFormat : Obligations.HexFormat := by
  refine fun raw s => ⟨?_, fun h => ⟨_, exec_formatRow_of_eq (decodeHex_of_ne_nil h) s, hexText_length raw,
    fun k hk => hexText_getElem? hk⟩⟩
  rintro rfl
  exact exec_formatRow .hex [] s

/-! ### STRING -/

theorem decodeString_of_ne_nil {raw : Bytes} (h : raw ≠ []) :
    decodeFormat .string raw = .value (.text ((trimZeros raw).map latin1)) := by
  obtain ⟨b, r, rfl⟩ := List.exists_cons_of_ne_nil h
  rfl

theorem latin1_injective : Function.Injective latin1 := fun a b h =>
  BitVec.eq_of_toNat_eq (by rw [← latin1_toNat, h, latin1_toNat])

/-- Nothing is trimmed from a sequence without a zero byte at its end. -/
theorem trimZeros_of_getLast?_ne_zero {raw : Bytes} (h : raw.getLast? ≠ some 0) : trimZeros raw = raw := by
  obtain ⟨⟨n, hn⟩, -⟩ := trimZeros_spec raw
  cases n with
  | zero => rw [List.replicate_zero, List.append_nil] at hn; exact hn.symm
  | succ n =>
    rw [List.replicate_succ', ← List.append_assoc] at hn
    exact absurd (hn ▸ List.getLast?_concat) h

theorem decodeString_injective {raw raw' : Bytes} (hne : raw ≠ []) (hne' : raw' ≠ []) (hlast : raw.getLast? ≠ some 0)
    (hlast' : raw'.getLast? ≠ some 0) (h : decodeFormat .string raw = decodeFormat .string raw') : raw = raw' := by
  rw [decodeString_of_ne_nil hne, decodeString_of_ne_nil hne', trimZeros_of_getLast?_ne_zero hlast,
    trimZeros_of_getLast?_ne_zero hlast'] at h
  injection h with hvalue
  injection hvalue with htext
  exact List.map_injective_iff.mpr latin1_injective htext

/-- Settles O45: the kept bytes are the trimmed sequence. -/
theorem stringFormat : Obligations.StringFormat := by
  refine fun raw s => ⟨?_, fun h => ?_⟩
  · rintro rfl
    exact exec_formatRow .string [] s
  · obtain ⟨⟨zeros, hraw⟩, hlast⟩ := trimZeros_spec raw
    refine ⟨trimZeros raw, zeros, hraw, hlast, _, exec_formatRow_of_eq (decodeString_of_ne_nil h) s, ?_⟩
    rw [List.map_map]
    exact List.map_congr_left fun b _ => latin1_toNat b

/-- Settles O46: a numeric format's equation has the window alone on its right side, and HEX and STRING are injective. -/
theorem numericFormatsReadTheirWindow : Obligations.NumericFormatsReadTheirWindow := by
  refine ⟨fun f window tail s h => exec_formatRow_inj.mpr ?_,
    fun raw raw' s h => decodeHex_injective (exec_formatRow_inj (f := .hex).mp h),
    fun raw raw' s hne hne' hlast hlast' h =>
      decodeString_injective hne hne' hlast hlast' (exec_formatRow_inj (f := .string).mp h)⟩
  rcases h with ⟨hf, hlen⟩ | ⟨hf, hlen⟩
  · obtain ⟨r0, r1, rfl⟩ := List.length_eq_two.mp hlen
    rcases hf with rfl | rfl <;> rfl
  · match window, hlen with
    | [r0, r1, r2, r3], _ => rcases hf with rfl | rfl | rfl <;> rfl

/-! ### IEEE 754 data on plain numbers -/

/-- What is taken off the exponent field of a binary format with `eb` exponent bits and `fb` fraction bits to get the
power of two of a normal datum's last mantissa bit: the bias, and the fraction bits. -/
def exponentOffset (eb fb : Nat) : Int := 2 ^ (eb - 1) - 1 + fb

/-- R168 and R169 for any two widths, on the sign, exponent and fraction fields as plain numbers. -/
def datumOfFields (eb fb s e f : Nat) : Datum :=
  if e = 0 then
    if f = 0 then .zero (decide (s = 1)) else .subnormal (decide (s = 1)) f (1 - exponentOffset eb fb)
  else if e = 2 ^ eb - 1 then
    if f = 0 then .infinity (decide (s = 1)) else .nan (decide (s = 1)) f (decide (f / 2 ^ (fb - 1) = 1))
  else .normal (decide (s = 1)) (2 ^ fb + f) (e - exponentOffset eb fb)

/-- A bit of a vector is the parity of its number shifted down. -/
theorem getLsbD_eq_decide {w : Nat} (v : BitVec w) (i : Nat) : v.getLsbD i = decide (v.toNat / 2 ^ i % 2 = 1) :=
  Nat.testBit_eq_decide_div_mod_eq

theorem getLsbD_last {w : Nat} (v : BitVec (w + 1)) : v.getLsbD w = decide (v.toNat / 2 ^ w = 1) := by
  have hlt : v.toNat / 2 ^ w < 2 := Nat.div_lt_of_lt_mul (by rw [← Nat.pow_succ]; exact v.isLt)
  rw [getLsbD_eq_decide, Nat.mod_eq_of_lt hlt]

/-- The top bit of a fraction field of `n + 1` bits. -/
theorem getLsbD_eq_decide_mod_div {w : Nat} (v : BitVec w) (n : Nat) :
    v.getLsbD n = decide (v.toNat % 2 ^ (n + 1) / 2 ^ n = 1) := by
  rw [getLsbD_eq_decide, Nat.pow_succ, Nat.mod_mul_right_div_self]

theorem binary16_eq_datumOfFields (bits : Word) :
    binary16 bits = datumOfFields 5 10 (bits.toNat / 2 ^ 15) (bits.toNat / 2 ^ 10 % 2 ^ 5) (bits.toNat % 2 ^ 10) := by
  simp only [binary16, getLsbD_last, getLsbD_eq_decide_mod_div, BitVec.extractLsb'_toNat, Nat.shiftRight_eq_div_pow,
    Nat.pow_zero, Nat.div_one]
  rfl

theorem binary32_eq_datumOfFields (bits : BitVec 32) :
    binary32 bits = datumOfFields 8 23 (bits.toNat / 2 ^ 31) (bits.toNat / 2 ^ 23 % 2 ^ 8) (bits.toNat % 2 ^ 23) := by
  simp only [binary32, getLsbD_last, getLsbD_eq_decide_mod_div, BitVec.extractLsb'_toNat, Nat.shiftRight_eq_div_pow,
    Nat.pow_zero, Nat.div_one]
  rfl

theorem sign_eq_pow {s : Nat} (hs : s < 2) : (if decide (s = 1) then -1 else 1 : ℚ) = (-1) ^ s := by
  obtain rfl | rfl : s = 0 ∨ s = 1 := by omega
  · norm_num
  · norm_num

/-- The five clauses of R168 and R169 for any two widths. -/
theorem datumOfFields_clauses (eb fb e f : Nat) {s : Nat} (hs : s < 2) :
    (e = 0 → f = 0 → datumOfFields eb fb s e f = .zero (decide (s = 1))) ∧
    (e = 0 → f ≠ 0 →
      datumOfFields eb fb s e f = .subnormal (decide (s = 1)) f (1 - exponentOffset eb fb) ∧
      datumNumber (datumOfFields eb fb s e f) = some ((-1) ^ s * f * (2 : ℚ) ^ (1 - exponentOffset eb fb))) ∧
    (1 ≤ e → e < 2 ^ eb - 1 →
      datumOfFields eb fb s e f = .normal (decide (s = 1)) (2 ^ fb + f) (e - exponentOffset eb fb) ∧
      datumNumber (datumOfFields eb fb s e f) =
        some ((-1) ^ s * (2 ^ fb + f) * (2 : ℚ) ^ (e - exponentOffset eb fb))) ∧
    (e ≠ 0 → e = 2 ^ eb - 1 → f = 0 → datumOfFields eb fb s e f = .infinity (decide (s = 1))) ∧
    (e ≠ 0 → e = 2 ^ eb - 1 → f ≠ 0 →
      datumOfFields eb fb s e f = .nan (decide (s = 1)) f (decide (f / 2 ^ (fb - 1) = 1))) := by
  refine ⟨fun he hf => ?_, fun he hf => ?_, fun he hlt => ?_, fun he hmax hf => ?_, fun he hmax hf => ?_⟩
  · rw [datumOfFields, if_pos he, if_pos hf]
  · rw [datumOfFields, if_pos he, if_neg hf, datumNumber, sign_eq_pow hs]
    exact ⟨rfl, rfl⟩
  · rw [datumOfFields, if_neg (by omega), if_neg hlt.ne, datumNumber, sign_eq_pow hs]
    push_cast
    exact ⟨rfl, rfl⟩
  · rw [datumOfFields, if_neg he, if_pos hmax, if_pos hf]
  · rw [datumOfFields, if_neg he, if_pos hmax, if_neg hf]

theorem exponentOffset_binary16 : exponentOffset 5 10 = 25 := rfl

theorem exponentOffset_binary32 : exponentOffset 8 23 = 150 := rfl

/-- Settles O41: the clauses at five exponent bits and ten fraction bits. -/
theorem binary16Datum : Obligations.Binary16Datum := by
  intro bits s e f hs he hf
  have hs2 : s < 2 := by have := bits.isLt; omega
  obtain ⟨hzero, hsubnormal, hnormal, hinfinity, hnan⟩ := datumOfFields_clauses 5 10 e f hs2
  rw [binary16_eq_datumOfFields, ← hs, ← he, ← hf]
  rw [exponentOffset_binary16] at hsubnormal hnormal
  have hone : (1024 : ℚ) = 2 ^ 10 := by norm_num
  rw [hone]
  exact ⟨hzero, hsubnormal, fun h1 h30 => hnormal h1 (by omega), fun h31 => hinfinity (by omega) h31,
    fun h31 => hnan (by omega) h31⟩

/-- Settles O42: the clauses at eight exponent bits and 23 fraction bits. -/
theorem binary32Datum : Obligations.Binary32Datum := by
  intro bits s e f hs he hf
  have hs2 : s < 2 := by have := bits.isLt; omega
  obtain ⟨hzero, hsubnormal, hnormal, hinfinity, hnan⟩ := datumOfFields_clauses 8 23 e f hs2
  rw [binary32_eq_datumOfFields, ← hs, ← he, ← hf]
  rw [exponentOffset_binary32] at hsubnormal hnormal
  exact ⟨hzero, hsubnormal, fun h1 h254 => hnormal h1 (by omega), fun h255 => hinfinity (by omega) h255,
    fun h255 => hnan (by omega) h255⟩

/-! ### The fields read back from a datum -/

/-- The sign, exponent and fraction fields of a datum. -/
def fieldsOfDatum (eb fb : Nat) : Datum → Nat × Nat × Nat
  | .zero s => (s.toNat, 0, 0)
  | .subnormal s m _ => (s.toNat, 0, m)
  | .normal s m x => (s.toNat, (x + exponentOffset eb fb).toNat, m - 2 ^ fb)
  | .infinity s => (s.toNat, 2 ^ eb - 1, 0)
  | .nan s f _ => (s.toNat, 2 ^ eb - 1, f)

/-- A datum keeps its three fields (R170). -/
theorem fieldsOfDatum_datumOfFields (eb fb e f : Nat) {s : Nat} (hs : s < 2) :
    fieldsOfDatum eb fb (datumOfFields eb fb s e f) = (s, e, f) := by
  have hsign : (decide (s = 1)).toNat = s := by
    obtain rfl | rfl : s = 0 ∨ s = 1 := by omega
    · rfl
    · rfl
  rw [datumOfFields]
  split
  case isTrue he => split <;> simp [fieldsOfDatum, *]
  case isFalse he =>
    split
    case isTrue hmax => split <;> simp [fieldsOfDatum, *]
    case isFalse hmax => simp [fieldsOfDatum, hsign]

theorem datumOfFields_inj {eb fb s e f s' e' f' : Nat} (hs : s < 2) (hs' : s' < 2)
    (h : datumOfFields eb fb s e f = datumOfFields eb fb s' e' f') : s = s' ∧ e = e' ∧ f = f' := by
  have hfields := congrArg (fieldsOfDatum eb fb) h
  rw [fieldsOfDatum_datumOfFields _ _ _ _ hs, fieldsOfDatum_datumOfFields _ _ _ _ hs'] at hfields
  simpa using hfields

theorem binary16_injective : Function.Injective binary16 := by
  intro a b h
  have ha := a.isLt
  have hb := b.isLt
  rw [binary16_eq_datumOfFields, binary16_eq_datumOfFields] at h
  obtain ⟨hs, he, hf⟩ := datumOfFields_inj (by omega) (by omega) h
  exact BitVec.eq_of_toNat_eq (by omega)

theorem binary32_injective : Function.Injective binary32 := by
  intro a b h
  have ha := a.isLt
  have hb := b.isLt
  rw [binary32_eq_datumOfFields, binary32_eq_datumOfFields] at h
  obtain ⟨hs, he, hf⟩ := datumOfFields_inj (by omega) (by omega) h
  exact BitVec.eq_of_toNat_eq (by omega)

/-- Settles O43: the three fields of a datum are all the bits of its pattern. -/
theorem floatDataKeepEveryBit : Obligations.FloatDataKeepEveryBit := ⟨binary16_injective, binary32_injective⟩

end Sys2Proof.Machine

/-! SUPPORT. The control commands from every state (spec/44_system R190 to R192), and a reserved opcode on the command
channel (R193). -/

namespace Sys2Proof

/-- The reserved opcodes are the bytes outside the table (30_encoding R73, R79). -/
theorem opcodeOf_eq_none_iff (b : Byte) : opcodeOf b = none ↔ b ∉ allOpcodes.map opcodeByte := by
  simp [opcodeOf]

/-- A reserved opcode takes no operand bytes (30_encoding R79). -/
theorem decode_reserved {op : Byte} (h : op ∉ allOpcodes.map opcodeByte) (rest : Bytes) :
    decode (op :: rest) = .reserved op rest := by
  rw [decode, (opcodeOf_eq_none_iff op).mpr h]

end Sys2Proof

namespace Sys2Proof.Machine

open Sys2Proof.Safety

theorem step_of_decode_reserved {s : State} {op : Byte} {rest : Bytes} (h : decode s.input = .reserved op rest) :
    step s = .next (returning .illegalCommand .none (leaveInput rest s)) := by
  rw [step, h]
  exact fail_eq .illegalCommand _

theorem exec_tidrd_eq (s : State) : exec .tidrd s = .next (returning .ok (.tid s.tid) s) := finish_eq (.tid s.tid) s

/-- Settles O8: the bytes listed are the opcode table, so the decoder finds a reserved opcode. -/
theorem reservedOpcodeIsIllegalCommand : Obligations.ReservedOpcodeIsIllegalCommand := by
  intro s opcode rest hinput hreserved
  have hdecode : decode s.input = .reserved opcode rest := by rw [hinput, decode_reserved hreserved]
  exact step_of_decode_reserved hdecode

/-- Settles O49, by the equation of each command. -/
theorem controlCommands : Obligations.ControlCommands :=
  fun v s => ⟨exec_reset_eq s, exec_tidld_eq v s, exec_tidrd_eq s⟩

end Sys2Proof.Machine

/-! SUPPORT. What an instruction can return, whatever the state (spec/60_exceptions R200, R201, R204, R205): it answers a
next state, and each command has its own statuses. -/

namespace Sys2Proof.Machine

open Sys2Proof.Safety

/-- A meaning that answers a next state with a status of a given kind. -/
def AnswersWithStatus (allowed : Status → Prop) (o : StepOutcome) : Prop :=
  ∃ status r s, allowed status ∧ o = .next (returning status r s)

theorem answersWithStatus_ok_finish (r : Result) (s : State) : AnswersWithStatus (· = .ok) (finish r s) :=
  ⟨.ok, r, s, rfl, finish_eq r s⟩

/-- The response in the next state has one of the meaning's statuses. -/
theorem AnswersWithStatus.status_of_next {allowed : Status → Prop} {o : StepOutcome} {t : State} {r : Response}
    (h : AnswersWithStatus allowed o) (ho : o = .next t) (hr : t.response = some r) : allowed r.status := by
  obtain ⟨status, result, s, hallowed, rfl⟩ := h
  rw [next_inj] at ho
  subst ho
  rw [returning_response, Option.some.injEq] at hr
  exact hr ▸ hallowed

/-- A command that no operand check refuses returns OK (R204). -/
theorem exec_ok_or_failsCleanly (i : Instr) (s : State) : AnswersWithStatus (· = .ok) (exec i s) ∨ FailsCleanly i s := by
  rcases exec_cases i s with ⟨r, hnext, -⟩ | hfails | ⟨f, hnext, -⟩ | ⟨v, -, hnext⟩ | ⟨-, hnext⟩
  · exact .inl ⟨_, _, _, rfl, hnext⟩
  · exact .inr hfails
  · exact .inl ⟨_, _, _, rfl, hnext⟩
  · exact .inl ⟨_, _, setTid v s, rfl, hnext⟩
  · exact .inl ⟨_, _, setTid Config.params.tidInit s, rfl, hnext⟩

/-- ILLEGAL_COMMAND is the answer to a reserved opcode alone, and no instruction is one. -/
theorem exec_status_ne_illegalCommand (i : Instr) (s : State) : AnswersWithStatus (· ≠ .illegalCommand) (exec i s) := by
  rcases exec_ok_or_failsCleanly i s with ⟨_, r, t, rfl, hnext⟩ | ⟨status, -, hstatus, hnext⟩
  · exact ⟨.ok, r, t, by decide, hnext⟩
  · exact ⟨status, .none, s, hstatus, hnext⟩

/-- The commands without an operand check end in `finish`. -/
theorem exec_status_ok {i : Instr} (hi : (∃ b, i = .crc16 b ∨ i = .crcchk b ∨ i = .prsrtuq b) ∨ i = .reset ∨
    (∃ v, i = .tidld v) ∨ i = .tidrd) (s : State) : AnswersWithStatus (· = .ok) (exec i s) := by
  rcases hi with ⟨b, rfl | rfl | rfl⟩ | rfl | ⟨v, rfl⟩ | rfl <;> exact answersWithStatus_ok_finish _ _

/-- The decode commands and VDEC have one operand check each (42_parse R132, 43_value_decode R161). -/
theorem exec_status_ok_or_illegalOperand {i : Instr}
    (hi : (∃ b es, i = .decrtu b es ∨ i = .dectcp b es) ∨ (∃ b m, i = .vdec b m)) (s : State) :
    AnswersWithStatus (fun status => status = .ok ∨ status = .illegalOperand) (exec i s) := by
  rcases hi with ⟨b, es, hi⟩ | ⟨b, m, rfl⟩
  · obtain ⟨hlegal, hillegal⟩ := decodeCommandsAreTotal b es s i hi
    by_cases hes : RtypesLegal es
    · obtain ⟨r, hnext⟩ := hlegal hes
      exact ⟨_, _, _, .inl rfl, hnext⟩
    · exact ⟨_, _, _, .inr rfl, hillegal hes⟩
  · cases hm : m.getLsbD 7 with
    | false => exact ⟨_, _, _, .inl rfl, decodeValues_ok hm b s⟩
    | true => exact ⟨_, _, _, .inr rfl, decodeValues_refused hm b s⟩

theorem exists_next_of_answersLegally {o : StepOutcome} (h : AnswersLegally o) : ∃ t, o = .next t := by
  obtain ⟨status, r, s, hnext, -⟩ := h
  exact ⟨_, hnext⟩

/-- Settles O10: a legal answer is a next state, and a waiting block stays in its own. -/
theorem nothingStopsTheBlock : Obligations.NothingStopsTheBlock := by
  refine ⟨fun i s => exists_next_of_answersLegally (answersLegally_exec i s), fun s => ?_⟩
  rcases answersLegally_step_or_waits s with h | h
  · exact exists_next_of_answersLegally h
  · exact ⟨s, h⟩

/-- Settles O53: a status other than OK is that of a refused operand check. -/
theorem failedCommandsWriteNothing : Obligations.FailedCommandsWriteNothing := by
  intro i s t r h hr hstatus
  rcases exec_ok_or_failsCleanly i s with hok | ⟨status, -, -, hnext⟩
  · exact absurd (hok.status_of_next h hr) hstatus
  · rw [hnext, next_inj] at h
    subst h
    rw [returning_response, Option.some.injEq] at hr
    rw [← hr]

/-- Settles O54, one clause from each kind of command. -/
theorem statusesOfEachCommand : Obligations.StatusesOfEachCommand :=
  fun i s _ _ h hr =>
    ⟨(exec_status_ne_illegalCommand i s).status_of_next h hr,
      fun hi => (exec_status_ok hi s).status_of_next h hr,
      fun hi => (exec_status_ok_or_illegalOperand hi s).status_of_next h hr⟩

end Sys2Proof.Machine

/-! SUPPORT. The host's transactions (spec/60_exceptions R221 to R226; log 7): what one attempt of a legal request comes
to, what the attempts that are left add, and what an exception response does to the attempt that receives it. -/

namespace Sys2Proof.Machine

open Sys2Proof.Safety

@[simp] theorem blockAfter_next (s t : State) : blockAfter s (.next t) = t := rfl

/-! ### One attempt -/

/-- A decode result never ends an attempt as NoResponse. -/
theorem terminalOutcome_ne_noResponse (mine : Nat) (r : Option Response) :
    terminalOutcome mine r ≠ some .noResponse := by
  unfold terminalOutcome
  split
  · split <;> simp
  · split <;> simp
  · split <;> simp
  · simp

/-- NoResponse is the host's answer to expired attempts, and no event of R221. -/
theorem awaitResponse_ne_noResponse (p : Params) (framing : Framing) (outstanding : List Entry) (mine : Nat)
    (arrivals : List Received) (s : State) :
    (awaitResponse p framing outstanding mine arrivals s).1 ≠ some .noResponse := by
  induction arrivals generalizing s with
  | nil => simp [awaitResponse]
  | cons received later ih =>
    cases received with
    | failure => simp [awaitResponse]
    | frame b =>
      rw [awaitResponse]
      split
      next o ho => exact ho ▸ terminalOutcome_ne_noResponse mine _
      next => exact ih _

/-- The entry that the host adds for a request (R226): under the identifier the request takes, 0 in RTU. -/
def ownEntry (framing : Framing) (req : Request) (s : State) : Entry :=
  ⟨match framing with
    | .rtu => 0
    | .tcp => s.tid, req.unit, req.rtype, req.count⟩

/-- The block encodes a legal request, in a frame that takes the entry's identifier (30_encoding R76). -/
theorem marshalWith_legal {p : Params} {req : Request} (h : LegalRequest p req.unit req.rtype req.count)
    (framing : Framing) (s : State) :
    ∃ b t, marshalWith p framing req.unit req.rtype req.addr req.count s = .next t ∧
      encodedFrame t.response = some (b, (ownEntry framing req s).tid) := by
  cases framing with
  | rtu => exact ⟨_, _, encodeRtuWith_legal h req.addr s, rfl⟩
  | tcp => exact ⟨_, _, encodeTcpWith_legal h req.addr s, rfl⟩

/-- An attempt of a legal request sends one frame and awaits its response. -/
theorem attempt_of_legal {p : Params} {req : Request} (h : LegalRequest p req.unit req.rtype req.count)
    (framing : Framing) (others : List Entry) (arrivals : List Received) (s : State) :
    ∃ b t, attempt p framing req others arrivals s =
      ⟨(awaitResponse p framing (others ++ [ownEntry framing req s]) others.length arrivals t).1, [b],
        (awaitResponse p framing (others ++ [ownEntry framing req s]) others.length arrivals t).2⟩ := by
  obtain ⟨b, t, hnext, hframe⟩ := marshalWith_legal h framing s
  refine ⟨b, t, ?_⟩
  simp only [attempt, hnext, blockAfter_next, hframe]
  rfl

/-! ### The attempts that are left -/

/-- A transaction with one more expired attempt in front of it: what that attempt sent, and its timeout. -/
def Transaction.afterExpired (t : Transaction) (sent : List Bytes) (timeout : Nat) : Transaction :=
  ⟨t.outcome, sent ++ t.sent, timeout + t.waited, t.block⟩

section

variable {p : Params} {framing : Framing} {req : Request} {others : List Entry} {script : List (List Received)}
  {s : State}

/-- An attempt that ends with an outcome ends the transaction (R223). -/
theorem attempts_of_ended {o : TransactionOutcome}
    (h : (attempt p framing req others (script.headD []) s).outcome = some o) (left : Nat) :
    attempts p framing req others (left + 1) script s =
      ⟨o, (attempt p framing req others (script.headD []) s).sent, 0,
        (attempt p framing req others (script.headD []) s).block⟩ := by
  simp only [attempts, h]

/-- An expired attempt is waited for and followed by the next one (R224). -/
theorem attempts_of_expired (h : (attempt p framing req others (script.headD []) s).outcome = none) (left : Nat) :
    attempts p framing req others (left + 1) script s =
      (attempts p framing req others left script.tail
        (attempt p framing req others (script.headD []) s).block).afterExpired
          (attempt p framing req others (script.headD []) s).sent req.timeout := by
  simp only [attempts, h, Transaction.afterExpired]

end

/-- What a transaction with `left` attempts comes to: all of them expired, or the last one sent brought the outcome. -/
def RetriesOnlyExpired (left timeout : Nat) (t : Transaction) : Prop :=
  (t.outcome = .noResponse ∧ t.sent.length = left ∧ t.waited = left * timeout) ∨
    (t.outcome ≠ .noResponse ∧ 1 ≤ t.sent.length ∧ t.sent.length ≤ left ∧ t.waited = (t.sent.length - 1) * timeout)

theorem retriesOnlyExpired_afterExpired {left timeout : Nat} {t : Transaction} (h : RetriesOnlyExpired left timeout t)
    (b : Bytes) : RetriesOnlyExpired (left + 1) timeout (t.afterExpired [b] timeout) := by
  rcases h with ⟨ho, hsent, hwaited⟩ | ⟨ho, hpos, hle, hwaited⟩
  · refine .inl ⟨ho, congrArg (· + 1) hsent, ?_⟩
    rw [Transaction.afterExpired, hwaited, Nat.succ_mul, Nat.add_comm]
  · refine .inr ⟨ho, Nat.le_add_left 1 _, Nat.succ_le_succ hle, ?_⟩
    obtain ⟨n, hn⟩ := Nat.exists_eq_add_of_le' hpos
    simp [Transaction.afterExpired, hwaited, hn, Nat.succ_mul, Nat.add_comm]

theorem attempts_retriesOnlyExpired {p : Params} {req : Request} (h : LegalRequest p req.unit req.rtype req.count)
    (framing : Framing) (others : List Entry) (left : Nat) (script : List (List Received)) (s : State) :
    RetriesOnlyExpired left req.timeout (attempts p framing req others left script s) := by
  induction left generalizing script s with
  | zero => exact .inl ⟨rfl, rfl, (Nat.zero_mul _).symm⟩
  | succ left ih =>
    obtain ⟨b, t, hattempt⟩ := attempt_of_legal h framing others (script.headD []) s
    cases houtcome : (attempt p framing req others (script.headD []) s).outcome with
    | some o =>
      have ho : o ≠ .noResponse := by
        rintro rfl
        rw [hattempt] at houtcome
        exact awaitResponse_ne_noResponse _ _ _ _ _ _ houtcome
      rw [attempts_of_ended houtcome, hattempt]
      exact .inr ⟨ho, Nat.le_refl 1, Nat.le_add_left 1 left, (Nat.zero_mul _).symm⟩
    | none =>
      rw [attempts_of_expired houtcome, hattempt]
      exact retriesOnlyExpired_afterExpired (ih _ _) b

/-- Settles O58: by induction on the attempts that are left, each of which sends one frame. -/
theorem transactionsRetryOnlyExpiredAttempts : Obligations.TransactionsRetryOnlyExpiredAttempts := by
  rintro p framing req others script s _ hlegal rfl
  exact attempts_retriesOnlyExpired hlegal framing others (1 + req.maxRetries) script s

/-! ### An exception response -/

/-- The host's new entry is the one match when no other entry is matched (R226). -/
theorem onlyMatch_append_singleton {key : Entry → Prop} {others : List Entry} {e : Entry} (he : key e)
    (hothers : ∀ e' ∈ others, ¬ key e') : OnlyMatch key (others ++ [e]) others.length e := by
  refine ⟨List.getElem?_concat_length, he, fun j e' hj he' => ?_⟩
  by_contra hne
  have hlt : j < others.length := by
    have hlen := (List.getElem?_eq_some_iff.mp hj).1
    rw [List.length_append, List.length_singleton] at hlen
    omega
  rw [List.getElem?_append_left hlt] at hj
  exact hothers e' (List.mem_of_getElem? hj) he'

/-- The envelope of the answer to a request: its unit in RTU, the identifier it took in TCP (42_parse R136). -/
def answerEnvelope (framing : Framing) (req : Request) (unit : Byte) (s : State) : Envelope :=
  match framing with
  | .rtu => .rtu req.unit
  | .tcp => .tcp s.tid unit

theorem answerEnvelope_matches_ownEntry (framing : Framing) (req : Request) (unit : Byte) (s : State) :
    EnvelopeMatches (answerEnvelope framing req unit s) (ownEntry framing req s) := by
  cases framing <;> rfl

theorem decodeCandidate_answerEnvelope (p : Params) (framing : Framing) (req : Request) (unit : Byte) (s : State)
    (pdu : Bytes) (outstanding : List Entry) :
    decodeCandidate p framing (envelopeFrame (answerEnvelope framing req unit s) pdu) outstanding =
      receiveWith p (answerEnvelope framing req unit s) pdu outstanding := by
  cases framing <;> rfl

/-- The outcome of an exception code (42_parse R133). -/
def exceptionOutcome (p : Params) (code : Byte) : TransactionOutcome :=
  if code ∈ p.gatewayCodes then .gatewayError code else .deviceError code

/-- A classified exception of the host's own entry ends the attempt (R221). -/
theorem terminalOutcome_exception (p : Params) (code : Byte) {m : Matched} {mine : Nat} (h : m.entry = mine) :
    terminalOutcome mine (some ⟨.ok, .parse (if code ∈ p.gatewayCodes then .gatewayError m code
      else .deviceError m code)⟩) = some (exceptionOutcome p code) := by
  unfold exceptionOutcome
  split <;> simp [terminalOutcome, h]

/-- The exception response to a request ends the attempt that receives it first, whatever arrives later. -/
theorem awaitResponse_exception {p : Params} {framing : Framing} {req : Request} {unit fc : Byte} {others : List Entry}
    {s : State} (hlegal : LegalRequest p req.unit req.rtype req.count) (hfc : RequestsFc req.rtype fc)
    (hothers : RtypesLegal others) (hmatch : ∀ e ∈ others, ¬ EnvelopeMatches (answerEnvelope framing req unit s) e)
    (code : Byte) (later : List Received) (t : State) :
    (awaitResponse p framing (others ++ [ownEntry framing req s]) others.length
      (.frame (envelopeFrame (answerEnvelope framing req unit s) (exceptionPdu fc code)) :: later) t).1 =
      some (exceptionOutcome p code) := by
  have hrtypes : RtypesLegal (others ++ [ownEntry framing req s]) :=
    List.forall_mem_append.mpr ⟨hothers, List.forall_mem_singleton.mpr hlegal.1⟩
  have honly := onlyMatch_append_singleton (answerEnvelope_matches_ownEntry framing req unit s) hmatch
  have hentry : (matchedIn (answerEnvelope framing req unit s) others.length (exceptionCode fc)).entry =
      others.length := by
    cases framing <;> rfl
  simp only [awaitResponse, decodeCandidate_answerEnvelope,
    receiveWith_exceptionPdu hrtypes honly (fc := fc) hfc code p t, blockAfter_next, returning_response,
    terminalOutcome_exception p code hentry]

/-- Settles O59: the first attempt ends with the exception's class, so there is no second one. -/
theorem exceptionResponseIsNotRetried : Obligations.ExceptionResponseIsNotRetried := by
  rintro p framing req unit fc code others later script s envelope response _ hlegal hfc hothers hresponse hmatch rfl
  have hframe : envelope = answerEnvelope framing req unit s ∧
      response = envelopeFrame (answerEnvelope framing req unit s) (exceptionPdu fc code) := by
    cases framing with
    | rtu => exact Prod.mk.inj hresponse
    | tcp =>
      rw [answerEnvelope, envelopeFrame, tcpFrame_exceptionPdu]
      exact Prod.mk.inj hresponse
  obtain ⟨rfl, rfl⟩ := hframe
  obtain ⟨b, t, hattempt⟩ := attempt_of_legal hlegal framing others
    (.frame (envelopeFrame (answerEnvelope framing req unit s) (exceptionPdu fc code)) :: later) s
  have houtcome := congrArg Attempt.outcome hattempt
  rw [awaitResponse_exception hlegal hfc hothers hmatch] at houtcome
  rw [transaction, Nat.add_comm, attempts_of_ended (script := _ :: script) houtcome, List.headD_cons, hattempt]
  exact ⟨rfl, rfl⟩

end Sys2Proof.Machine

/-! SUPPORT. The host's scan (spec/60_exceptions R229, R230; log 7): unless a transport failure ends it, its report has
one entry for each unit it issues a request to, in their order. -/

namespace Sys2Proof.Machine

theorem scanUnits_units {p : Params} {framing : Framing} {probe : Request} {script : Byte → List (List Received)}
    {units : List Byte} {s : State} (h : (scanUnits p framing probe script units s).2.1 = false) :
    (scanUnits p framing probe script units s).1.map Prod.fst = units := by
  induction units generalizing s with
  | nil => rfl
  | cons u us ih =>
    rw [scanUnits] at h ⊢
    split at h
    next => cases h
    next hfailure =>
      rw [if_neg hfailure]
      exact congrArg (u :: ·) (ih h)

theorem unitRange_length (first last : Nat) : (unitRange first last).length = last + 1 - first := by
  simp [unitRange]

theorem ofNat_mem_unitRange {first last n : Nat} (h1 : first ≤ n) (h2 : n ≤ last) :
    BitVec.ofNat 8 n ∈ unitRange first last :=
  List.mem_map_of_mem (List.mem_range'_1.mpr (by omega))

/-- Settles O60: the entries' units are the whole range. -/
theorem scanReportsEveryUnit : Obligations.ScanReportsEveryUnit := by
  intro p framing first last probe script s _ hrange _ hfailed
  have hunits : (scanDevices p framing first last probe none script s).entries.map Prod.fst = unitRange first last :=
    scanUnits_units hfailed
  have hlength : (scanDevices p framing first last probe none script s).entries.length =
      (unitRange first last).length := by
    rw [← hunits, List.length_map]
  refine ⟨beq_iff_eq.mpr hlength, ?_, fun n h1 h2 => ?_⟩
  · rw [hlength, unitRange_length, Nat.sub_add_comm hrange]
  · have hmem := ofNat_mem_unitRange h1 h2
    rw [← hunits, List.mem_map] at hmem
    obtain ⟨⟨u, o⟩, hentry, rfl⟩ := hmem
    exact ⟨o, hentry⟩

end Sys2Proof.Machine


/-! SUPPORT. A new block instance has returned nothing (spec/70_reset R241; log 3): where the invariant of responses
starts. -/

namespace Sys2Proof.Machine

open Sys2Proof.Safety

theorem inv_of_response_none {s : State} (h : s.response = none) : Inv s := by
  intro r hr
  rw [h] at hr
  contradiction

/-- Settles O55: reset leaves no response. -/
theorem invariantAtReset : Obligations.InvariantAtReset := inv_of_response_none reset_response

end Sys2Proof.Machine
